-- ==== Sys2Proof/Word.lean ====
section
/-! DEFINITION. Bytes and byte strings, the only data the block handles (spec/00_scope.md R7). -/

namespace Sys2Proof

/-- A byte: 8 bits, unsigned (R7 "A byte is 8 bits, a value 0 to 255"). -/
abbrev Byte := BitVec 8

/-- A byte string, offset 0 first (R7). -/
abbrev Bytes := List Byte

/-- `zeros(n)`: `n` bytes of value `0x00` (R7). -/
def zeros (n : Nat) : Bytes := List.replicate n 0#8

end Sys2Proof
end

