-- ==== Sys2Proof/Config.lean ====
section
/-! DEFINITION. The parameters of the block, spec/00_scope.md R6.

Three groups: the numbers the source states (fixed constants below); the protocol constants the source does not
give, one record `WireConstants` (decision D9; values marked PRESUMED, log entry 1); and the OPEN parameters of one
block, which together with the wire constants make up `Params`. `Params` is constant for a given block (R22): State
carries it so that a statement about every state holds for every value of every parameter (log entry 2). -/

namespace Sys2Proof

/-! ### Numbers the source states (R6, ground "source") -/

/-- `UNIVERSE_MIN`. -/
abbrev Config.universeMin : Nat := 1
/-- `UNIVERSE_MAX`. -/
abbrev Config.universeMax : Nat := 63999
/-- One more than the largest universe representable in `UNIVERSE_WIDTH = 16` bits. -/
abbrev Config.universeLimit : Nat := 65536
/-- `PAYLOAD_MAX`; `PAYLOAD_MIN` is 1, so the only length below it is 0. -/
abbrev Config.payloadMax : Nat := 512
/-- `PRIORITY_MAX`. -/
abbrev Config.priorityMax : Nat := 200
/-- `PRIORITY_DEFAULT` (R115). -/
abbrev Config.priorityDefault : Byte := 100
/-- `CID_LEN`. -/
abbrev Config.cidLen : Nat := 16
/-- `NAME_WIDTH` (R58). -/
abbrev Config.nameWidth : Nat := 64
/-- `PORT_DEFAULT` (R16 CR2, R170). -/
abbrev Config.portDefault : BitVec 16 := 5568
/-- `FLAGS` = 0x7 in bits 15:12 of a flags-and-length field (R52). -/
abbrev Config.flagsNibble : Nat := 0x7
/-- `START_CODE` (R70). -/
abbrev Config.startCode : Nat := 0x00
/-- `SYNC_ADDR` (R62). -/
abbrev Config.syncAddr : Nat := 0
/-- `OPTIONS` (R63). -/
abbrev Config.options : Nat := 0
/-- `FIRST_PROP_ADDR` (R67). -/
abbrev Config.firstPropAddr : Nat := 0
/-- `ADDR_INC` (R68). -/
abbrev Config.addrInc : Nat := 1
/-- `HDR_LEN` (R51). -/
abbrev Config.hdrLen : Nat := 126

/-! ### The protocol constants the source does not give -/

/-- The record `WireConstants` of decision D9. The field widths are fixed, since every offset rests on them. -/
structure WireConstants where
  /-- `PREAMBLE_SIZE`, 16 bits (R53). -/
  preambleSize  : BitVec 16
  /-- `POSTAMBLE_SIZE`, 16 bits (R53). -/
  postambleSize : BitVec 16
  /-- `ACN_PID`, 12 bytes (R54). -/
  acnPid        : Vector Byte 12
  /-- `VECTOR_ROOT`, 32 bits (R55). -/
  vectorRoot    : BitVec 32
  /-- `VECTOR_FRAMING`, 32 bits (R57). -/
  vectorFraming : BitVec 32
  /-- `VECTOR_DMP`, 8 bits (R65). -/
  vectorDmp     : Byte
  /-- `ADDR_DATA_TYPE`, 8 bits (R66). -/
  addrDataType  : Byte
  /-- `MCAST_BASE`, first byte of a derived multicast address (R112). -/
  mcastBase0    : Byte
  /-- `MCAST_BASE`, second byte. -/
  mcastBase1    : Byte
  deriving DecidableEq, Repr

/-- The default values of D9: what is generally known of E1.31 (G1 to G7, G10 of 93_implementation_defined.md).
PRESUMED (log entry 1). -/
def WireConstants.e131 : WireConstants where
  preambleSize  := 0x0010
  postambleSize := 0x0000
  acnPid        := #v[0x41, 0x53, 0x43, 0x2D, 0x45, 0x31, 0x2E, 0x31, 0x37, 0x00, 0x00, 0x00]
  vectorRoot    := 0x00000004
  vectorFraming := 0x00000002
  vectorDmp     := 0x02
  addrDataType  := 0xA1
  mcastBase0    := 239
  mcastBase1    := 255

/-! ### The OPEN parameters -/

/-- `UNIVERSE_RANGE_POLICY` (D6): what a universe of 0 or of 64000 to 65535 does. -/
inductive UniversePolicy where
  | reject
  | pass
  deriving DecidableEq, Repr

/-- `PRIORITY_RANGE_POLICY` (D7): what a priority of 201 to 255 does. -/
inductive PriorityPolicy where
  | pass
  | reject
  deriving DecidableEq, Repr

/-- The family of an interface selector (R130). -/
inductive IfFamily where
  | index
  | ipv4
  | ipv6
  | other (kind : Byte)
  deriving DecidableEq, Repr

/-- An interface selector (R80). The address of kind 1 has 4 bytes, of kind 2 has 16, and `byOther` has a kind of 3 to
255 and at most 255 bytes: `IfSelector.wellFormed` says so. -/
inductive IfSelector where
  /-- kind 0, "by platform-specific index". -/
  | byIndex (n : BitVec 32)
  /-- kind 1, "by address". -/
  | byIPv4 (a : Bytes)
  /-- kind 2, "by address", another family. -/
  | byIPv6 (a : Bytes)
  /-- kinds 3 to 255, an address of any other family. -/
  | byOther (kind : Byte) (sel : Bytes)
  deriving DecidableEq, Repr

/-- The parameters of one block (R6): the OPEN ones and the wire constants. -/
structure Params where
  /-- `UNIVERSE_RANGE_POLICY`. -/
  universePolicy : UniversePolicy
  /-- `PRIORITY_RANGE_POLICY`. -/
  priorityPolicy : PriorityPolicy
  /-- `NPORTS`, the number of caller ports; ports are `0 .. nports - 1`. -/
  nports         : Nat
  /-- `SUPPORTED_IF_FAMILIES`. -/
  ifFamilies     : List IfFamily
  /-- The protocol constants. -/
  wire           : WireConstants
  deriving DecidableEq, Repr

/-- R6's defaults. `NPORTS` has none; 256 is a DESIGN CHOICE (log entry 3). -/
def Params.default : Params where
  universePolicy := .reject
  priorityPolicy := .pass
  nports         := 256
  ifFamilies     := [.index, .ipv4]
  wire           := .e131

end Sys2Proof
end

