-- ==== Sys2Proof/Syntax.lean ====
section
/-! DEFINITION. The rows of spec/opcode_table.json as one inductive: the `Command` sum type of 30_encoding.md R76, and
the packet the block emits, which the table lists as a row although it is no command. -/

namespace Sys2Proof

/-- One constructor per row of the opcode table. A universe is a natural number, as R76 has it: values that 16 bits
cannot hold can be presented, and are rejected. `none` is an absent operand. -/
inductive Instr where
  /-- `SEND_MCAST` (R110, S format R77). -/
  | sendMcast (univ : Nat) (pay : Bytes) (prio : Option Byte)
  /-- `SEND_UCAST` (R111, S format R77). -/
  | sendUcast (host : Bytes) (univ : Nat) (pay : Bytes) (prio : Option Byte)
  /-- `BUILD` (R95, B format R78). -/
  | build (univ : Nat) (name cid : Option Bytes) (seq : Byte) (pay : Bytes) (prio : Option Byte)
  /-- `MCAST_ADDR` (R114, A format R79). -/
  | mcastAddr (univ : Nat)
  /-- `SET_MCAST_IF` (R130, I format R80). -/
  | setMcastIf (selector : IfSelector)
  /-- `TEARDOWN` (R131, T format R81). -/
  | teardown
  /-- `E131_DATA_PACKET` (R50): the packet, with the fields a reader can recover from it (R75); `name` is the 64-byte
  field. Its first byte is `0x00`, so as a command descriptor it is a reserved one (R76, R82; log entry 4). -/
  | e131DataPacket (cid name : Bytes) (prio seq : Byte) (univ : Nat) (pay : Bytes)
  deriving DecidableEq, Repr

end Sys2Proof
end

