-- ==== Sys2Proof/WellFormed.lean ====
section
/-! DEFINITION. Which instructions have an encoding: every operand fits the field that carries it (R50, R77 to R81); and
which are commands, with an encoding or without (R76). -/

namespace Sys2Proof

/-- The selector's bytes match its kind (R80; R82 "`S` does not match `kind` for kinds 0 to 2"). -/
def IfSelector.wellFormed : IfSelector → Bool
  | .byIndex _ => true
  | .byIPv4 a => a.length == 4
  | .byIPv6 a => a.length == 16
  | .byOther kind sel => decide (3 ≤ kind.toNat) && decide (sel.length < 256)

/-- Every operand fits its field: `universe` in 32 bits, a payload or name length in 16, a host or CID length in 8; and
for a packet, the widths of R50. -/
def Instr.wellFormed : Instr → Bool
  | .sendMcast univ pay _ => decide (univ < 2 ^ 32) && decide (pay.length < 65536)
  | .sendUcast host univ pay _ =>
      decide (host.length < 256) && decide (univ < 2 ^ 32) && decide (pay.length < 65536)
  | .build univ name cid _ pay _ =>
      decide (univ < 2 ^ 32) && decide ((name.getD []).length < 65536) && decide ((cid.getD []).length < 256)
        && decide (pay.length < 65536)
  | .mcastAddr univ => decide (univ < 2 ^ 32)
  | .setMcastIf selector => selector.wellFormed
  | .teardown => true
  | .e131DataPacket cid name _ _ univ pay =>
      cid.length == 16 && name.length == 64 && decide (univ < 65536) && decide (1 ≤ pay.length)
        && decide (pay.length ≤ 512)

/-- A value of R80's selector type: 4 or 16 address bytes, or a kind of 3 to 255 and any bytes. -/
def IfSelector.legal : IfSelector → Bool
  | .byIndex _ => true
  | .byIPv4 a => a.length == 4
  | .byIPv6 a => a.length == 16
  | .byOther kind _ => decide (3 ≤ kind.toNat)

/-- A value of R76's `Command`, the normative form of a command, whether or not a descriptor spells it: any universe, byte
strings of any length but for the host string, which R111 bounds at 255 bytes, and a selector of R80. The packet is no
command (log entries 4 and 20). -/
def Instr.isCommand : Instr → Bool
  | .sendMcast _ _ _ => true
  | .sendUcast host _ _ _ => decide (host.length < 256)
  | .build _ _ _ _ _ _ => true
  | .mcastAddr _ => true
  | .setMcastIf selector => selector.legal
  | .teardown => true
  | .e131DataPacket _ _ _ _ _ _ => false

end Sys2Proof
end

