-- ==== Sys2Proof/Decode.lean ====
section
/-! DEFINITION. The command descriptors and the packet as bytes, spec/30_encoding.md: the big-endian helpers, the
decoder (total, rejecting by name), the encoder, the reader of a packet's fields, and the opcode table's words. -/

namespace Sys2Proof

/-! ### Byte order (R7, R33) -/

/-- The `n`-byte big-endian image of `v`, the most significant byte first. -/
def beImage : Nat → Nat → Bytes
  | 0, _ => []
  | n + 1, v => beImage n (v / 256) ++ [BitVec.ofNat 8 v]

/-- `be16(v)`. -/
def be16 (v : Nat) : Bytes := [BitVec.ofNat 8 (v / 256), BitVec.ofNat 8 v]

/-- `be32(v)`. -/
def be32 (v : Nat) : Bytes :=
  [BitVec.ofNat 8 (v / 2 ^ 24), BitVec.ofNat 8 (v / 2 ^ 16), BitVec.ofNat 8 (v / 256), BitVec.ofNat 8 v]

/-- The number whose big-endian image is the two bytes given (R77 "`L = b[8]*256 + b[9]`"). -/
def readBe16 (b1 b0 : Byte) : Nat := b1.toNat * 256 + b0.toNat

/-- The number whose big-endian image is the four bytes given (R77, operand assembly). -/
def readBe32 (b3 b2 b1 b0 : Byte) : Nat :=
  b3.toNat * 2 ^ 24 + b2.toNat * 2 ^ 16 + b1.toNat * 2 ^ 8 + b0.toNat

/-- `b[i]`, reading 0 past the end (used only where the length has been checked, or where zeros are meant). -/
def byteAt (b : Bytes) (i : Nat) : Byte := b.getD i 0#8

/-- `b[i .. j]`: the `j - i` bytes at offsets `i` to `j - 1` (R7). -/
def slice (b : Bytes) (i j : Nat) : Bytes := (b.drop i).take (j - i)

/-! ### The packet (R50) -/

/-- The value of a flags-and-length field, `fl(len) = 0x7000 + len` (R52). -/
def flagsAndLength (len : Nat) : Nat := Config.flagsNibble * 4096 + len

/-- R50's rows of the root layer, offsets 0 to 37, for a payload of `l` bytes. -/
def rootLayout (w : WireConstants) (l : Nat) (cid : Bytes) : Bytes :=
  be16 w.preambleSize.toNat ++ be16 w.postambleSize.toNat ++ w.acnPid.toList ++ be16 (flagsAndLength (110 + l))
    ++ be32 w.vectorRoot.toNat ++ cid

/-- R50's rows of the framing layer, offsets 38 to 114; `name64` is the 64-byte name field. -/
def framingLayout (w : WireConstants) (l : Nat) (name64 : Bytes) (prio seq : Byte) (univ : Nat) : Bytes :=
  be16 (flagsAndLength (88 + l)) ++ be32 w.vectorFraming.toNat ++ name64
    ++ ([prio] ++ be16 Config.syncAddr ++ [seq] ++ [BitVec.ofNat 8 Config.options] ++ be16 univ)

/-- R50's rows of the DMP layer before the slot data, offsets 115 to 125. -/
def dmpLayout (w : WireConstants) (l : Nat) : Bytes :=
  be16 (flagsAndLength (11 + l)) ++ [w.vectorDmp] ++ [w.addrDataType] ++ be16 Config.firstPropAddr
    ++ be16 Config.addrInc ++ be16 (l + 1) ++ [BitVec.ofNat 8 Config.startCode]

/-- R50's table: the packet with the wire constants `w`, the 16 bytes `cid`, the 64-byte name field `name64` and the
payload `pay`, layer after layer with no padding. -/
def packetLayout (w : WireConstants) (cid name64 : Bytes) (prio seq : Byte) (univ : Nat) (pay : Bytes) : Bytes :=
  rootLayout w pay.length cid ++ (framingLayout w pay.length name64 prio seq univ ++ (dmpLayout w pay.length ++ pay))

/-- Offsets at which a row fixes every bit: mask `FF` and the byte. -/
def rowFixed (b : Bytes) : List (Byte × Byte) := b.map fun v => (0xFF#8, v)

/-- Offsets at which a row fixes nothing: mask `00`. -/
def rowFree (n : Nat) : List (Byte × Byte) := List.replicate n (0x00#8, 0x00#8)

/-- A flags-and-length field of the row: high nibble 7, mask `F0 00`. -/
def rowFlags : List (Byte × Byte) := [(0xF0#8, 0x70#8), (0x00#8, 0x00#8)]

/-- The leading bytes of the table's row `E131_DATA_PACKET`: for each of the offsets 0 to 125 the mask and the match,
layer after layer. -/
def packetRow : List (Byte × Byte) :=
  (rowFixed [0x00#8, 0x10#8, 0x00#8, 0x00#8]
    ++ rowFixed [0x41#8, 0x53#8, 0x43#8, 0x2D#8, 0x45#8, 0x31#8, 0x2E#8, 0x31#8, 0x37#8, 0x00#8, 0x00#8, 0x00#8]
    ++ rowFlags ++ rowFixed [0x00#8, 0x00#8, 0x00#8, 0x04#8] ++ rowFree 16)
  ++ ((rowFlags ++ rowFixed [0x00#8, 0x00#8, 0x00#8, 0x02#8] ++ rowFree 64
    ++ (rowFree 1 ++ rowFixed [0x00#8, 0x00#8] ++ rowFree 1 ++ rowFixed [0x00#8] ++ rowFree 2))
  ++ (rowFlags ++ rowFixed [0x02#8, 0xA1#8, 0x00#8, 0x00#8, 0x00#8, 0x01#8] ++ rowFree 2 ++ rowFixed [0x00#8]))

/-- The row selects `b`: `(b[i] AND mask[i]) = match[i]` at every offset of the row. -/
def rowSelects : List (Byte × Byte) → Bytes → Bool
  | [], _ => true
  | _ :: _, [] => false
  | (mask, value) :: row, x :: b => x &&& mask == value && rowSelects row b

/-- The low 12 bits of the two bytes at offset `i`: the length of a flags-and-length field (R52). -/
def lengthField (b : Bytes) (i : Nat) : Nat := readBe16 (byteAt b i) (byteAt b (i + 1)) % 4096

/-- The row's constraints: the total length, the three length fields and the count agree (R52, R69, R89). -/
def packetLengthsAgree (b : Bytes) : Bool :=
  let l := b.length - 126
  decide (127 ≤ b.length) && decide (b.length ≤ 638)
    && lengthField b 16 == 110 + l && lengthField b 38 == 88 + l && lengthField b 115 == 11 + l
    && readBe16 (byteAt b 123) (byteAt b 124) == l + 1

/-- `decode_fields` (R75): the inverse layout, `none` below 127 bytes. The result is an `e131DataPacket` holding what R75
lists: universe, priority, sequence number, the 64-byte name field, CID and payload. -/
def decodeFields (b : Bytes) : Option Instr :=
  if 127 ≤ b.length then
    some (.e131DataPacket (slice b 22 38) (slice b 44 108) (byteAt b 108) (byteAt b 111)
      (readBe16 (byteAt b 113) (byteAt b 114)) (slice b 126 b.length))
  else none

/-! ### Reserved descriptors (R82) -/

/-- Why a byte string spells no row of the table: the cases of R82, in its order. -/
inductive Reserved where
  /-- The empty string: there is no opcode byte. -/
  | noOpcode
  /-- `op` is `0x00` (and the bytes are no packet), or `0x07` to `0xFF`. -/
  | opcode
  /-- A reserved flag bit is 1. -/
  | flagBits
  /-- `H ≠ 0` in `SEND_MCAST`. -/
  | hostInMcast
  /-- `C ≠ 0` with `HAS_CID = 0`. -/
  | cidWithoutFlag
  /-- `N ≠ 0` with `HAS_NAME = 0`. -/
  | nameWithoutFlag
  /-- `S` does not match `kind` for kinds 0 to 2. -/
  | selectorSize
  /-- The descriptor is shorter or longer than its length fields say. -/
  | length
  deriving DecidableEq, Repr

/-! ### Decoding -/

/-- `HAS_PRIO` selects the priority byte (R77). -/
def prioOperand (flags prio : Byte) : Option Byte := if flags.getLsbD 0 then some prio else none

/-- `SEND_MCAST` after its opcode byte (R77, `H = 0`). -/
def decodeSendMcast : Bytes → Except Reserved Instr
  | flags :: prio :: h :: u3 :: u2 :: u1 :: u0 :: l1 :: l0 :: rest =>
      if flags &&& 0xFE#8 ≠ 0#8 then .error .flagBits
      else if h ≠ 0#8 then .error .hostInMcast
      else if rest.length ≠ readBe16 l1 l0 then .error .length
      else .ok (.sendMcast (readBe32 u3 u2 u1 u0) rest (prioOperand flags prio))
  | _ => .error .length

/-- `SEND_UCAST` after its opcode byte (R77). -/
def decodeSendUcast : Bytes → Except Reserved Instr
  | flags :: prio :: h :: u3 :: u2 :: u1 :: u0 :: l1 :: l0 :: rest =>
      if flags &&& 0xFE#8 ≠ 0#8 then .error .flagBits
      else if rest.length ≠ h.toNat + readBe16 l1 l0 then .error .length
      else .ok (.sendUcast (rest.take h.toNat) (readBe32 u3 u2 u1 u0) (rest.drop h.toNat) (prioOperand flags prio))
  | _ => .error .length

/-- `BUILD` after its opcode byte (R78). -/
def decodeBuild : Bytes → Except Reserved Instr
  | flags :: prio :: seq :: u3 :: u2 :: u1 :: u0 :: l1 :: l0 :: c :: n1 :: n0 :: rest =>
      if flags &&& 0xF8#8 ≠ 0#8 then .error .flagBits
      else if flags.getLsbD 1 = false ∧ c ≠ 0#8 then .error .cidWithoutFlag
      else if flags.getLsbD 2 = false ∧ readBe16 n1 n0 ≠ 0 then .error .nameWithoutFlag
      else if rest.length ≠ c.toNat + readBe16 n1 n0 + readBe16 l1 l0 then .error .length
      else
        let cid := rest.take c.toNat
        let name := (rest.drop c.toNat).take (readBe16 n1 n0)
        let pay := rest.drop (c.toNat + readBe16 n1 n0)
        .ok (.build (readBe32 u3 u2 u1 u0) (if flags.getLsbD 2 then some name else none)
          (if flags.getLsbD 1 then some cid else none) seq pay (prioOperand flags prio))
  | _ => .error .length

/-- `MCAST_ADDR` after its opcode byte (R79). -/
def decodeMcastAddr : Bytes → Except Reserved Instr
  | [u3, u2, u1, u0] => .ok (.mcastAddr (readBe32 u3 u2 u1 u0))
  | _ => .error .length

/-- `SET_MCAST_IF` after its opcode byte (R80). -/
def decodeSetMcastIf : Bytes → Except Reserved Instr
  | kind :: s :: sel =>
      if (kind = 0#8 ∧ s ≠ 4#8) ∨ (kind = 1#8 ∧ s ≠ 4#8) ∨ (kind = 2#8 ∧ s ≠ 16#8) then .error .selectorSize
      else if sel.length ≠ s.toNat then .error .length
      else if kind = 0#8 then
        .ok (.setMcastIf (.byIndex
          (BitVec.ofNat 32 (readBe32 (byteAt sel 0) (byteAt sel 1) (byteAt sel 2) (byteAt sel 3)))))
      else if kind = 1#8 then .ok (.setMcastIf (.byIPv4 sel))
      else if kind = 2#8 then .ok (.setMcastIf (.byIPv6 sel))
      else .ok (.setMcastIf (.byOther kind sel))
  | _ => .error .length

/-- `TEARDOWN` after its opcode byte (R81). -/
def decodeTeardown : Bytes → Except Reserved Instr
  | [] => .ok .teardown
  | _ => .error .length

/-- A byte string whose first byte is `0x00`: the table's packet row when it is selected and its constraints hold,
else the reserved opcode `0x00`. -/
def decodePacket (b : Bytes) : Except Reserved Instr :=
  if rowSelects packetRow b && packetLengthsAgree b then
    match decodeFields b with
    | some i => .ok i
    | none => .error .length
  else .error .opcode

/-- The row of the table a byte string spells, or why it spells none (R76 to R82, R50). -/
def decode (b : Bytes) : Except Reserved Instr :=
  match b with
  | [] => .error .noOpcode
  | op :: body =>
      if op = 0x01#8 then decodeSendMcast body
      else if op = 0x02#8 then decodeSendUcast body
      else if op = 0x03#8 then decodeBuild body
      else if op = 0x04#8 then decodeMcastAddr body
      else if op = 0x05#8 then decodeSetMcastIf body
      else if op = 0x06#8 then decodeTeardown body
      else if op = 0x00#8 then decodePacket (op :: body)
      else .error .opcode

/-! ### Encoding -/

/-- The flags byte: bit 0 `HAS_PRIO`, bit 1 `HAS_CID`, bit 2 `HAS_NAME` (R77, R78). -/
def flagsByte (hasPrio hasCid hasName : Bool) : Byte :=
  BitVec.ofNat 8 (hasPrio.toNat + 2 * hasCid.toNat + 4 * hasName.toNat)

/-- The length of a byte string as a one-byte field. -/
def len8 (b : Bytes) : Byte := BitVec.ofNat 8 b.length

/-- The descriptor of an interface selector after the opcode byte (R80). -/
def encodeSelector : IfSelector → Bytes
  | .byIndex n => [0#8, 4#8] ++ be32 n.toNat
  | .byIPv4 a => [1#8, len8 a] ++ a
  | .byIPv6 a => [2#8, len8 a] ++ a
  | .byOther kind sel => [kind, len8 sel] ++ sel

/-- The bytes of a well-formed instruction. The priority byte of a command that gives none is `00`, as in
95_test_vectors.md V9. -/
def encode : Instr → Bytes
  | .sendMcast univ pay prio =>
      [0x01#8, flagsByte prio.isSome false false, prio.getD 0#8, 0#8] ++ be32 univ ++ be16 pay.length ++ pay
  | .sendUcast host univ pay prio =>
      [0x02#8, flagsByte prio.isSome false false, prio.getD 0#8, len8 host] ++ be32 univ ++ be16 pay.length
        ++ host ++ pay
  | .build univ name cid seq pay prio =>
      [0x03#8, flagsByte prio.isSome cid.isSome name.isSome, prio.getD 0#8, seq] ++ be32 univ ++ be16 pay.length
        ++ [len8 (cid.getD [])] ++ be16 (name.getD []).length ++ cid.getD [] ++ name.getD [] ++ pay
  | .mcastAddr univ => [0x04#8] ++ be32 univ
  | .setMcastIf selector => [0x05#8] ++ encodeSelector selector
  | .teardown => [0x06#8]
  | .e131DataPacket cid name prio seq univ pay => packetLayout .e131 cid name prio seq univ pay

/-! ### The table's words -/

/-- The length the length fields of a descriptor give it, reading bytes it does not hold as 0 (R77 to R81, R50). -/
def descriptorLength (b : Bytes) : Nat :=
  let op := byteAt b 0
  if op = 0x01#8 ∨ op = 0x02#8 then 10 + (byteAt b 3).toNat + readBe16 (byteAt b 8) (byteAt b 9)
  else if op = 0x03#8 then
    13 + (byteAt b 10).toNat + readBe16 (byteAt b 11) (byteAt b 12) + readBe16 (byteAt b 8) (byteAt b 9)
  else if op = 0x04#8 then 5
  else if op = 0x05#8 then 3 + (byteAt b 2).toNat
  else if op = 0x06#8 then 1
  else if op = 0x00#8 then 125 + readBe16 (byteAt b 123) (byteAt b 124)
  else 1

/-- The `n` bytes of a table word: bit 0 of the word is the least significant bit of the first byte. -/
def bytesOfWord (n w : Nat) : Bytes := (List.range n).map fun i => BitVec.ofNat 8 (w / 256 ^ i)

/-- A table word as a byte string: its own bytes, then zeros up to the length its length fields give. -/
def tableBytes (nbits w : Nat) : Bytes :=
  let b := bytesOfWord (nbits / 8) w
  b ++ zeros (descriptorLength b - b.length)

/-- The instruction the decoder reads from a table word of `nbits` bits. -/
def decodeTableWord (nbits w : Nat) : Option Instr :=
  match decode (tableBytes nbits w) with
  | .ok i => some i
  | .error _ => none

end Sys2Proof
end

