-- ==== Sys2Proof/Machine/State.lean ====
section
/-! DEFINITION. The state of the block (spec/10_state.md R10 to R20), the messages on its four channels
(spec/30_encoding.md R76, R83 to R85), and the reasons a step stops. Plain data throughout. -/

namespace Sys2Proof.Machine

/-! ### Errors (spec/60_exceptions.md R140 to R144) -/

/-- The causes of `EncodingError`, in the order of R141. -/
inductive EncodingCause where
  | payloadEmpty
  | payloadTooLong
  | cidMissing
  | cidMalformed
  | nameMissing
  | universeNot16Bit
  | universeOutOfRange
  | priorityOutOfRange
  deriving DecidableEq, Repr

/-- The causes of `TransmissionError` (R143). -/
inductive TransmissionCause where
  | resolveFail
  | sendFail
  deriving DecidableEq, Repr

/-- The causes of `BadCommand` (R144). -/
inductive BadCommandCause where
  | reservedEncoding
  | tornDown
  deriving DecidableEq, Repr

/-- An error: its class (R140) and its cause. `addressFamily` has the one cause `UNSUPPORTED_FAMILY` (R142). -/
inductive Error where
  | encoding (cause : EncodingCause)
  | addressFamily
  | transmission (cause : TransmissionCause)
  | badCommand (cause : BadCommandCause)
  deriving DecidableEq, Repr

/-! ### Messages -/

/-- A response (R83): `Ok` with a result, or an error with none. -/
inductive Response where
  | ok (result : Bytes)
  | err (error : Error)
  deriving DecidableEq, Repr

/-- A destination (R17): an IPv4 address of four bytes, or an unresolved host string. -/
inductive Dest where
  | mcast (a0 a1 a2 a3 : Byte)
  | ucast (host : Bytes)
  deriving DecidableEq, Repr

/-- The TRANSPORT's answer to a transmission, the TXS message (R85). -/
inductive TxStatus where
  | ok
  | resolveFail
  | sendFail
  deriving DecidableEq, Repr

/-- What the block tells the TRANSPORT: the TX message of R84, and the three notices of R130, R131 and R170. -/
inductive TransportMsg where
  /-- "tell the TRANSPORT to create its handle" (R170). -/
  | createHandle
  /-- `emit TX(dest, port, bytes)` (R8, R84). -/
  | tx (dest : Dest) (port : BitVec 16) (bytes : Bytes)
  /-- "tell the TRANSPORT to use selector for outgoing multicast" (R130). -/
  | useInterface (selector : IfSelector)
  /-- "tell the TRANSPORT to release its handle" (R131). -/
  | releaseHandle
  deriving DecidableEq, Repr

/-- A move of an agent outside the block: everything that comes into it (R5, R170, R181; log entry 5). -/
inductive Input where
  /-- The HOST presents a descriptor, of a command or reserved, on the port `caller` (channel CMD). -/
  | cmd (caller : Nat) (descriptor : Bytes)
  /-- The HOST presents a command in its normative form, the value of R76, on the port `caller` (channel CMD): "any command
  with any operands" (R181), those that no descriptor spells among them. -/
  | command (caller : Nat) (command : Instr)
  /-- The TRANSPORT completes the pending transmission of `caller` with the status it draws (channel TXS). -/
  | txs (caller : Nat) (status : TxStatus)
  /-- The reset event `CONSTRUCT`, by whoever listens on the port `caller`. -/
  | construct (caller : Nat) (cid name : Option Bytes) (port : Option (BitVec 16)) (iface : Option IfSelector)
  deriving DecidableEq, Repr

/-- A transmission issued and not yet completed (R17). `univ` is below 65536: `State.Inv` says so. -/
structure PendEntry where
  caller : Nat
  dest   : Dest
  port   : BitVec 16
  bytes  : Bytes
  univ   : Nat
  seq    : Byte
  deriving DecidableEq, Repr

/-- The events of the history (R19). -/
inductive Event where
  /-- Issue step of a send that passed validation. -/
  | issued (caller : Nat) (cmd : Instr) (univ : Nat) (seq : Byte) (dest : Dest) (port : BitVec 16) (bytes : Bytes)
  /-- A command answered with an error at issue; `none` for a reserved descriptor, which spells no command (log
  entry 6). -/
  | rejected (caller : Nat) (cmd : Option Instr) (error : Error)
  /-- Completion step. -/
  | completed (caller : Nat) (dest : Dest) (port : BitVec 16) (bytes : Bytes) (status : TxStatus)
  /-- `BUILD` or `MCAST_ADDR` answered. -/
  | built (caller : Nat) (result : Bytes)
  /-- `SET_MCAST_IF` answered, `none` standing for `Ok`. -/
  | configured (caller : Nat) (selector : IfSelector) (status : Option Error)
  /-- `TEARDOWN` answered. -/
  | tornDown (caller : Nat)
  deriving DecidableEq, Repr

/-! ### The state -/

/-- The state of the block (R10), with the records and channels the model keeps beside it.

`seq` to `pend` are R10's tuple; `hist` is R19's record; `inbox`, `rsp` and `toTransport` are the channels of decision
D2; `caller` is the port whose command is in service; `params` are the parameters of R6, which no step changes. The
buffers `PAY`, `HOSTBUF` and `OUT` of R18 vanish with the response: within the one step that a command is, they are
arguments and results of its meaning, and what outlives that step is the `bytes` and `dest` of a pending entry. -/
structure State where
  /-- `SEQ` (R11): the universes in `dom(SEQ)` with their counters, universes strictly rising. -/
  seq         : List Host.Cell
  /-- CR0 `CID` (R16). -/
  cid         : Option Bytes
  /-- CR1 `NAME` (R16). -/
  name        : Option Bytes
  /-- CR2 `PORT` (R16). -/
  port        : BitVec 16
  /-- CR3 `MCAST_IF` (R16). -/
  mcastIf     : Option IfSelector
  /-- CR4 `TORN_DOWN` (R16). -/
  tornDown    : Bool
  /-- `PEND` (R17), a multiset: the entries by rising caller (log entry 7). -/
  pend        : List PendEntry
  /-- `HIST` (R19), oldest first. -/
  hist        : List Event
  /-- The port whose command is in service, or was last. -/
  caller      : Nat
  /-- The moves of the HOST and the TRANSPORT still to come, the earliest first. -/
  inbox       : List Input
  /-- Channel RSP: the responses given, each with its caller, oldest first. -/
  rsp         : List (Nat × Response)
  /-- Channel TX and the notices to the TRANSPORT, oldest first. -/
  toTransport : List TransportMsg
  /-- The parameters of this block (R6, R22). -/
  params      : Params
  deriving DecidableEq, Repr

/-- The state after `CONSTRUCT` with every operand absent (R20): the identity is `none` "if absent", the port 5568, the
interface `none`, and the TRANSPORT has been told to create its handle (log entry 8). -/
def State.reset : State where
  seq         := []
  cid         := none
  name        := none
  port        := Config.portDefault
  mcastIf     := none
  tornDown    := false
  pend        := []
  hist        := []
  caller      := 0
  inbox       := []
  rsp         := []
  toTransport := [.createHandle]
  params      := .default

/-! ### Why a step stops -/

/-- Faults. There are none: R149 "There is no fatal/process-terminating error class inside this core". Every error of
60_exceptions.md is a response, and the machine goes on. -/
inductive Fault : Type
  deriving DecidableEq, Repr

/-- Refusals: moves to which the spec gives no meaning. -/
inductive Refusal where
  /-- Raised by an arm of `exec` that has no meaning yet; no arm raises it. Safe. -/
  | notModelled (mnemonic : String)
  /-- Raised by `TEARDOWN` with `PEND` not empty: R131 "has no meaning in this spec: a model refuses it". Safe. -/
  | teardownWithPending
  /-- Raised by the reset event with `PEND` not empty: R173 "has no meaning in this spec and a model refuses it". Safe. -/
  | constructWithPending
  deriving DecidableEq, Repr

end Sys2Proof.Machine
end

