-- ==== Sys2Proof/Machine/Ops.lean ====
section
/-! DEFINITION. The named operations over the state: the counter file, the buffers, the pending set, the channels, the
history, raising an error, and the choice of the next move. -/

namespace Sys2Proof.Machine

/-! ### The counter file `SEQ` (R11, R12, R35) -/

/-- The stored counter of universe `u`, `none` when `u` is not in `dom(SEQ)`. -/
def Memory.lookup : List Host.Cell → Nat → Option Byte
  | [], _ => none
  | (k, w) :: rest, u => if k = u then some w else Memory.lookup rest u

/-- The map with `u` holding `v`, the universes kept rising. -/
def Memory.insert (u : Nat) (v : Byte) : List Host.Cell → List Host.Cell
  | [] => [(u, v)]
  | (k, w) :: rest =>
      if u < k then (u, v) :: (k, w) :: rest
      else if k = u then (u, v) :: rest
      else (k, w) :: Memory.insert u v rest

/-- Every universe of the list is above `k`, and they rise strictly. -/
def Memory.rising : Nat → List Host.Cell → Bool
  | _, [] => true
  | k, (u, _) :: rest => decide (k ≤ u) && Memory.rising (u + 1) rest

/-- The canonical form of the counter file: universes strictly rising, each a 16-bit universe id (R11). An unlisted
universe reads as `none`, so no entry equals what an unlisted one reads as. -/
def Memory.wf (m : List Host.Cell) : Bool := Memory.rising 0 m && m.all fun x => decide (x.1 < 65536)

/-- `SEQ[u]`: the stored value when `u` is in `dom(SEQ)` and 0 otherwise (R11). -/
def State.seqRead (s : State) (u : Nat) : Byte := (Memory.lookup s.seq u).getD 0

/-- `u` is in `dom(SEQ)` (R12). -/
def State.inDom (s : State) (u : Nat) : Bool := (Memory.lookup s.seq u).isSome

/-- `SEQ[u] <- v`, which puts `u` in `dom(SEQ)` (R8). -/
def State.seqWrite (u : Nat) (v : Byte) (s : State) : State := { s with seq := Memory.insert u v s.seq }

/-- Counter advance, `next(s) = (s + 1) mod 256` (R116). -/
def nextSeq (v : Byte) : Byte := v + 1

/-! ### The buffers (R31, R32) -/

/-- `MemRead(addr, n)` of the payload buffer. -/
def memRead (pay : Bytes) (addr n : Nat) : Bytes := (pay.drop addr).take n

/-- `MemWriteBytes(addr, b)` on the output buffer. -/
def memWriteBytes (addr : Nat) (b : Bytes) (out : Bytes) : Bytes :=
  out.take addr ++ b ++ out.drop (addr + b.length)

/-- `MemWrite(addr, n, v)`: the `n`-byte big-endian image of `v` (`n` is 1, 2 or 4). -/
def memWrite (addr n v : Nat) (out : Bytes) : Bytes := memWriteBytes addr (beImage n v) out

/-! ### The pending set `PEND` (R17) -/

/-- The entry with an added entry, by rising caller. -/
def pendInsert (e : PendEntry) : List PendEntry → List PendEntry
  | [] => [e]
  | x :: rest => if e.caller < x.caller then e :: x :: rest else x :: pendInsert e rest

/-- The pending entry of a caller; a caller has at most one (R17). -/
def pendFind (c : Nat) : List PendEntry → Option PendEntry
  | [] => none
  | x :: rest => if x.caller = c then some x else pendFind c rest

/-- The set without the entry of a caller. -/
def pendErase (c : Nat) : List PendEntry → List PendEntry
  | [] => []
  | x :: rest => if x.caller = c then rest else x :: pendErase c rest

/-- The caller waits for the completion of its send. -/
def State.busy (s : State) (c : Nat) : Bool := (pendFind c s.pend).isSome

/-- `PEND += e`. -/
def State.pendAdd (e : PendEntry) (s : State) : State := { s with pend := pendInsert e s.pend }

/-- `PEND -= e` for the entry of the caller `c`. -/
def State.pendDrop (c : Nat) (s : State) : State := { s with pend := pendErase c s.pend }

/-! ### History and channels (R8, R19, R83, R84) -/

/-- `HIST += e`. -/
def State.record (e : Event) (s : State) : State := { s with hist := s.hist ++ [e] }

/-- `respond`, to the caller `c` (R8, R83). -/
def State.respondTo (c : Nat) (r : Response) (s : State) : State := { s with rsp := s.rsp ++ [(c, r)] }

/-- `respond`, to the caller whose command is in service. -/
def State.respond (r : Response) (s : State) : State := s.respondTo s.caller r

/-- A message to the TRANSPORT. -/
def State.tell (m : TransportMsg) (s : State) : State := { s with toTransport := s.toTransport ++ [m] }

/-- The port `c` is the one whose command is in service. -/
def State.serving (c : Nat) (s : State) : State := { s with caller := c }

/-- The inputs left once one of them has been taken. -/
def State.withInbox (rest : List Input) (s : State) : State := { s with inbox := rest }

/-- `MCAST_IF <- sel`. -/
def State.setIf (sel : Option IfSelector) (s : State) : State := { s with mcastIf := sel }

/-- `TORN_DOWN <- 1` (nothing but a reset clears it, R16). -/
def State.tearDown (s : State) : State := { s with tornDown := true }

/-! ### Raising an error: the one entry of 60_exceptions.md (R145, R148)

The command ends, the caller in service gets `respond(Class, cause, empty)`, and the block's state does not change. There
is no saved context and no return instruction (R149): the next command finds the block as it was. -/

/-- A command answered with an error at issue: the event `Rejected` and the response. -/
def State.reject (cmd : Option Instr) (e : Error) (s : State) : State :=
  (s.record (.rejected s.caller cmd e)).respond (.err e)

/-- The answer to a reserved descriptor (R82): `BadCommand(RESERVED_ENCODING)`, nothing changed, nothing emitted. -/
def State.rejectReserved (s : State) : State := s.reject none (.badCommand .reservedEncoding)

/-! ### Codes (R83 to R85, R144) -/

/-- The number of an encoding cause (R141). -/
def EncodingCause.code : EncodingCause → Nat
  | .payloadEmpty => 1
  | .payloadTooLong => 2
  | .cidMissing => 3
  | .cidMalformed => 4
  | .nameMissing => 5
  | .universeNot16Bit => 6
  | .universeOutOfRange => 7
  | .priorityOutOfRange => 8

/-- The number of an error's class, the `status` of its response (R140). -/
def Error.status : Error → Nat
  | .encoding _ => 1
  | .addressFamily => 2
  | .transmission _ => 3
  | .badCommand _ => 4

/-- The number of an error's cause (R144). -/
def Error.cause : Error → Nat
  | .encoding c => c.code
  | .addressFamily => 1
  | .transmission .resolveFail => 1
  | .transmission .sendFail => 2
  | .badCommand .reservedEncoding => 1
  | .badCommand .tornDown => 2

/-- A response as bytes (R83). -/
def Response.encode : Response → Bytes
  | .ok result => [0, 0] ++ be16 result.length ++ result
  | .err e => [BitVec.ofNat 8 e.status, BitVec.ofNat 8 e.cause, 0, 0]

/-- The bytes that name a destination in a TX message (R84). -/
def Dest.bytes : Dest → Bytes
  | .mcast a0 a1 a2 a3 => [a0, a1, a2, a3]
  | .ucast host => host

/-- `dest_kind` of a TX message (R84). -/
def Dest.kind : Dest → Byte
  | .mcast .. => 0
  | .ucast _ => 1

/-- A TX message as bytes (R84); the three notices have no byte form in the spec. -/
def TransportMsg.encode : TransportMsg → Option Bytes
  | .tx dest port bytes =>
      some ([dest.kind, len8 dest.bytes] ++ be16 port.toNat ++ be16 bytes.length ++ dest.bytes ++ bytes)
  | .createHandle => none
  | .useInterface _ => none
  | .releaseHandle => none

/-- A TXS message as a byte (R85). -/
def TxStatus.code : TxStatus → Byte
  | .ok => 0
  | .resolveFail => 1
  | .sendFail => 2

/-- The status may answer a transmission to this destination: `ResolveFail` only a unicast one (R85, R118). -/
def TxStatus.answers : TxStatus → Dest → Bool
  | .ok, _ => true
  | .sendFail, _ => true
  | .resolveFail, .ucast _ => true
  | .resolveFail, .mcast .. => false

/-- The response a completion status gives (R118). -/
def TxStatus.response : TxStatus → Response
  | .ok => .ok []
  | .resolveFail => .err (.transmission .resolveFail)
  | .sendFail => .err (.transmission .sendFail)

/-! ### The next move -/

/-- The port exists and its caller has had the response to its last command: it may present the next one (R38 item 2,
R181). -/
def State.accepts (s : State) (c : Nat) : Bool := decide (c < s.params.nports) && !s.busy c

/-- Whether an input can be taken now: a descriptor, or a value of R76's `Command`, when its port accepts one; a completion when the caller has a pending entry that the status can answer (R118); the reset
event always. -/
def Input.enabled (s : State) : Input → Bool
  | .cmd c _ => s.accepts c
  | .command c i => s.accepts c && i.isCommand
  | .txs c st =>
      match pendFind c s.pend with
      | none => false
      | some e => st.answers e.dest
  | .construct .. => true

/-- The first element that satisfies `p`, and the list without it. -/
def takeFirst {α : Type} (p : α → Bool) : List α → Option (α × List α)
  | [] => none
  | x :: rest =>
      if p x then some (x, rest)
      else match takeFirst p rest with
        | none => none
        | some (y, others) => some (y, x :: others)

/-- The next move: the earliest input that can be taken, and the inputs left. An input that cannot be taken yet waits
(log entry 5). -/
def State.nextInput (s : State) : Option (Input × List Input) := takeFirst (Input.enabled s) s.inbox

/-- The least port that can present a command now; 0 if there is none. -/
def State.freePort (s : State) : Nat := ((List.range s.params.nports).find? fun c => !s.busy c).getD 0

end Sys2Proof.Machine
end

