-- ==== Sys2Proof/Machine/Operands.lean ====
section
/-! DEFINITION. Operands: the default priority, the range policies, the name field, the selector's family, the multicast
address, and the validation that the builder and the sends share. -/

namespace Sys2Proof.Machine

/-- The priority of a command: 100 when it gives none (R115, R95, D24). -/
def priorityOf (prio : Option Byte) : Byte := prio.getD Config.priorityDefault

/-- The universe is outside 1 to 63999 and the policy is to reject it (R88). -/
def universeRejected (p : Params) (univ : Nat) : Bool :=
  decide (p.universePolicy = .reject) && (decide (univ = 0) || decide (univ > Config.universeMax))

/-- The priority is above 200 and the policy is to reject it (R88). -/
def priorityRejected (p : Params) (prio : Byte) : Bool :=
  decide (p.priorityPolicy = .reject) && decide (prio.toNat > Config.priorityMax)

/-- `name_field` (R58): the first 64 bytes, padded with zeros to 64. -/
def nameField (name : Bytes) : Bytes :=
  if name.length ≥ Config.nameWidth then name.take Config.nameWidth
  else name ++ zeros (Config.nameWidth - name.length)

/-- `family` (R130). -/
def familyOf : IfSelector → IfFamily
  | .byIndex _ => .index
  | .byIPv4 _ => .ipv4
  | .byIPv6 _ => .ipv6
  | .byOther kind _ => .other kind

/-- `mcast_addr` (R112) as a destination. -/
def mcastAddr (p : Params) (univ : Nat) : Dest :=
  .mcast p.wire.mcastBase0 p.wire.mcastBase1 (BitVec.ofNat 8 (univ / 256)) (BitVec.ofNat 8 univ)

/-- `validate` (R91): the first cause that applies, in that order. -/
def validate (p : Params) (univ : Nat) (name cid : Option Bytes) (pay : Bytes) (prio : Byte) :
    Option EncodingCause :=
  if pay.length = 0 then some .payloadEmpty
  else if pay.length > Config.payloadMax then some .payloadTooLong
  else if cid = none then some .cidMissing
  else if (cid.getD []).length ≠ Config.cidLen then some .cidMalformed
  else if name = none then some .nameMissing
  else if univ ≥ Config.universeLimit then some .universeNot16Bit
  else if universeRejected p univ then some .universeOutOfRange
  else if priorityRejected p prio then some .priorityOutOfRange
  else none

/-- The checks `MCAST_ADDR` makes on its universe (R114): those of `validate`, in its order. -/
def validateUniverse (p : Params) (univ : Nat) : Option EncodingCause :=
  if univ ≥ Config.universeLimit then some .universeNot16Bit
  else if universeRejected p univ then some .universeOutOfRange
  else none

end Sys2Proof.Machine
end

