-- ==== Sys2Proof/Machine/Flags.lean ====
section
/-! DEFINITION. Flags: the block has no status flag, no condition code and no carry or overflow bit (R15), so no flag is
computed here. What the packet calls flags is the high nibble of its three flags-and-length fields (R52), and what it
calls options is constant 0 (R63); their three lengths are below. -/

namespace Sys2Proof.Machine

/-- The root flags-and-length value, "the total remaining packet length": `0x7000 + (110 + L)` (R52). -/
def rootFlagsLength (l : Nat) : Nat := flagsAndLength (110 + l)

/-- The framing flags-and-length value: `0x7000 + (88 + L)` (R52). -/
def framingFlagsLength (l : Nat) : Nat := flagsAndLength (88 + l)

/-- The DMP flags-and-length value: `0x7000 + (11 + L)` (R52). -/
def dmpFlagsLength (l : Nat) : Nat := flagsAndLength (11 + l)

end Sys2Proof.Machine
end

