-- ==== Sys2Proof/Machine/Builder.lean ====
section
/-! DEFINITION. The Packet Builder (spec/40_packet_builder.md): `build`, the command `BUILD`, and the packet itself
presented as a descriptor. -/

namespace Sys2Proof.Machine

/-- `write_root` (R92). -/
def writeRoot (w : WireConstants) (l : Nat) (cid : Bytes) (out : Bytes) : Bytes :=
  let out := memWrite 0 2 w.preambleSize.toNat out
  let out := memWrite 2 2 w.postambleSize.toNat out
  let out := memWriteBytes 4 w.acnPid.toList out
  let out := memWrite 16 2 (rootFlagsLength l) out
  let out := memWrite 18 4 w.vectorRoot.toNat out
  memWriteBytes 22 cid out

/-- `write_framing` (R93). -/
def writeFraming (w : WireConstants) (l : Nat) (name : Bytes) (prio seq : Byte) (univ : Nat) (out : Bytes) : Bytes :=
  let out := memWrite 38 2 (framingFlagsLength l) out
  let out := memWrite 40 4 w.vectorFraming.toNat out
  let out := memWriteBytes 44 (nameField name) out
  let out := memWrite 108 1 prio.toNat out
  let out := memWrite 109 2 Config.syncAddr out
  let out := memWrite 111 1 seq.toNat out
  let out := memWrite 112 1 Config.options out
  memWrite 113 2 univ out

/-- `write_dmp` (R94). -/
def writeDmp (w : WireConstants) (l : Nat) (pay : Bytes) (out : Bytes) : Bytes :=
  let out := memWrite 115 2 (dmpFlagsLength l) out
  let out := memWrite 117 1 w.vectorDmp.toNat out
  let out := memWrite 118 1 w.addrDataType.toNat out
  let out := memWrite 119 2 Config.firstPropAddr out
  let out := memWrite 121 2 Config.addrInc out
  let out := memWrite 123 2 (l + 1) out
  let out := memWrite 125 1 Config.startCode out
  memWriteBytes 126 (memRead pay 0 l) out

/-- The three writes of `build` over an output buffer (R90). -/
def writePacket (w : WireConstants) (name cid : Bytes) (seq : Byte) (univ : Nat) (pay : Bytes) (prio : Byte)
    (out : Bytes) : Bytes :=
  let out := writeRoot w pay.length cid out
  let out := writeFraming w pay.length name prio seq univ out
  writeDmp w pay.length pay out

/-- `build` (R90): validation, then the packet in a fresh buffer of `126 + L` bytes. -/
def build (p : Params) (univ : Nat) (name cid : Option Bytes) (seq : Byte) (pay : Bytes) (prio : Byte) :
    Except EncodingCause Bytes :=
  match validate p univ name cid pay prio with
  | some cause => .error cause
  | none => .ok (writePacket p.wire (name.getD []) (cid.getD []) seq univ pay prio (zeros (Config.hdrLen + pay.length)))

/-- `BUILD` (R95). It reads no register: identity and sequence number are operands, and it works after `TEARDOWN`. -/
def execBuild (univ : Nat) (name cid : Option Bytes) (seq : Byte) (pay : Bytes) (prio : Option Byte) (s : State) :
    Host.Outcome State Fault Refusal :=
  match build s.params univ name cid seq pay (priorityOf prio) with
  | .ok bytes => .next ((s.record (.built s.caller bytes)).respond (.ok bytes))
  | .error cause => .next (s.reject (some (.build univ name cid seq pay prio)) (.encoding cause))

/-- The table's row `E131_DATA_PACKET` is an output of the block and no command. Presented as a descriptor its byte 0,
`0x00`, is a reserved opcode (R76), so the block answers `BadCommand(RESERVED_ENCODING)` and changes nothing (R82; log
entry 4). -/
def execE131DataPacket (s : State) : Host.Outcome State Fault Refusal := .next s.rejectReserved

end Sys2Proof.Machine
end

