-- ==== Sys2Proof/Machine/Sender.lean ====
section
/-! DEFINITION. The Sender (spec/41_sender.md): the issue step of the two sends, the completion step, and the multicast
address. -/

namespace Sys2Proof.Machine

/-- What an issue step does once the packet is built (R113): the counter advances, the datagram is handed to the TRANSPORT
and joins `PEND`, and the history gets its event. There is no response yet. -/
def State.queueSend (cmd : Instr) (univ : Nat) (dest : Dest) (bytes : Bytes) (s : State) : State :=
  (((s.seqWrite univ (nextSeq (s.seqRead univ))).tell (.tx dest s.port bytes)).pendAdd
    { caller := s.caller, dest := dest, port := s.port, bytes := bytes, univ := univ, seq := s.seqRead univ }).record
    (.issued s.caller cmd univ (s.seqRead univ) dest s.port bytes)

/-- The issue step (R113), common to both sends and atomic (R36). `build` fails exactly when `validate` names a cause
(R96), so its one match is both the validation and the building. -/
def issue (cmd : Instr) (univ : Nat) (pay : Bytes) (prio : Option Byte) (dest : Dest) (s : State) : State :=
  if s.tornDown then s.reject (some cmd) (.badCommand .tornDown)
  else match build s.params univ s.name s.cid (s.seqRead univ) pay (priorityOf prio) with
    | .error cause => s.reject (some cmd) (.encoding cause)
    | .ok bytes => s.queueSend cmd univ dest bytes

/-- `SEND_MCAST` (R110). -/
def execSendMcast (univ : Nat) (pay : Bytes) (prio : Option Byte) (s : State) : Host.Outcome State Fault Refusal :=
  .next (issue (.sendMcast univ pay prio) univ pay prio (mcastAddr s.params univ) s)

/-- `SEND_UCAST` (R111). The host string is handed on unread. -/
def execSendUcast (host : Bytes) (univ : Nat) (pay : Bytes) (prio : Option Byte) (s : State) :
    Host.Outcome State Fault Refusal :=
  .next (issue (.sendUcast host univ pay prio) univ pay prio (.ucast host) s)

/-- `MCAST_ADDR` (R114). -/
def execMcastAddr (univ : Nat) (s : State) : Host.Outcome State Fault Refusal :=
  match validateUniverse s.params univ with
  | some cause => .next (s.reject (some (.mcastAddr univ)) (.encoding cause))
  | none =>
      .next ((s.record (.built s.caller (mcastAddr s.params univ).bytes)).respond
        (.ok (mcastAddr s.params univ).bytes))

/-- The completion step (R118) of the entry `e` with the status `st` that the TRANSPORT draws. -/
def complete (e : PendEntry) (st : TxStatus) (s : State) : State :=
  ((s.pendDrop e.caller).record (.completed e.caller e.dest e.port e.bytes st)).respondTo e.caller st.response

end Sys2Proof.Machine
end

