-- ==== Sys2Proof/Machine/Configuration.lean ====
section
/-! DEFINITION. The configuration commands (spec/42_configuration.md) and the reset event `CONSTRUCT`
(spec/70_reset_and_hazards.md R170). -/

namespace Sys2Proof.Machine

/-- `SET_MCAST_IF` (R130). An unsupported family leaves no partial effect; its event is `Configured`, not `Rejected`. -/
def execSetMcastIf (selector : IfSelector) (s : State) : Host.Outcome State Fault Refusal :=
  if s.tornDown then .next (s.reject (some (.setMcastIf selector)) (.badCommand .tornDown))
  else if familyOf selector ∈ s.params.ifFamilies then
    .next ((((s.tell (.useInterface selector)).setIf (some selector)).record
      (.configured s.caller selector none)).respond (.ok []))
  else .next ((s.record (.configured s.caller selector (some .addressFamily))).respond (.err .addressFamily))

/-- `TEARDOWN` (R131): refused while a transmission is pending. -/
def execTeardown (s : State) : Host.Outcome State Fault Refusal :=
  if s.pend = [] then .next (((s.tearDown.tell .releaseHandle).record (.tornDown s.caller)).respond (.ok []))
  else .refused .teardownWithPending

/-- The new block of `CONSTRUCT` before its interface operand is looked at (R170): every register set, the counters, the
pending set and the records empty, the TRANSPORT told to create its handle. The parameters are those of the block, and
the inputs still to come stay. -/
def State.constructed (c : Nat) (cid name : Option Bytes) (port : Option (BitVec 16)) (s : State) : State where
  seq         := []
  cid         := cid
  name        := name
  port        := port.getD Config.portDefault
  mcastIf     := none
  tornDown    := false
  pend        := []
  hist        := []
  caller      := c
  inbox       := s.inbox
  rsp         := []
  toTransport := [.createHandle]
  params      := s.params

/-- `CONSTRUCT` (R170): with an interface operand, `SET_MCAST_IF` as the first command. Refused while a transmission is
pending (R173). -/
def construct (c : Nat) (cid name : Option Bytes) (port : Option (BitVec 16)) (iface : Option IfSelector) (s : State) :
    Host.Outcome State Fault Refusal :=
  if s.pend = [] then
    match iface with
    | none => .next (s.constructed c cid name port)
    | some selector => execSetMcastIf selector (s.constructed c cid name port)
  else .refused .constructWithPending

end Sys2Proof.Machine
end

