-- ==== Sys2Proof/Machine/Dispatch.lean ====
section
/-! DEFINITION. One arm per row of the opcode table. -/

namespace Sys2Proof.Machine

def exec (i : Instr) (s : State) : Host.Outcome State Fault Refusal :=
  match i with
  | .sendMcast univ pay prio => Sys2Proof.Machine.execSendMcast univ pay prio s
  | .sendUcast host univ pay prio => Sys2Proof.Machine.execSendUcast host univ pay prio s
  | .build univ name cid seq pay prio => Sys2Proof.Machine.execBuild univ name cid seq pay prio s
  | .mcastAddr univ => Sys2Proof.Machine.execMcastAddr univ s
  | .setMcastIf selector => Sys2Proof.Machine.execSetMcastIf selector s
  | .teardown => Sys2Proof.Machine.execTeardown s
  -- the packet is an output of the block; as a descriptor it is a reserved one (log entry 4)
  | .e131DataPacket _ _ _ _ _ _ => Sys2Proof.Machine.execE131DataPacket s

end Sys2Proof.Machine
end

