-- ==== Sys2Proof/Machine/Service.lean ====
section
/-! DEFINITION. What the block does with a move of an outside agent: a command, a completion, the reset event (R5). -/

namespace Sys2Proof.Machine

/-- A descriptor on the port `c`: decoded and run, or answered as reserved (R76, R82, R146 item 1). -/
def serveCommand (c : Nat) (descriptor : Bytes) (s : State) : Host.Outcome State Fault Refusal :=
  match decode descriptor with
  | .ok i => exec i (s.serving c)
  | .error _ => .next (s.serving c).rejectReserved

/-- A completion of the caller's pending entry (R118); without one there is nothing to complete. -/
def serveStatus (c : Nat) (st : TxStatus) (s : State) : Host.Outcome State Fault Refusal :=
  match pendFind c s.pend with
  | some e => .next (complete e st s)
  | none => .next s

/-- One input. -/
def serve (x : Input) (s : State) : Host.Outcome State Fault Refusal :=
  match x with
  | .cmd c descriptor => serveCommand c descriptor s
  | .command c i => exec i (s.serving c)
  | .txs c st => serveStatus c st s
  | .construct c cid name port iface => construct c cid name port iface s

end Sys2Proof.Machine
end

