-- ==== Sys2Proof/Machine/Step.lean ====
section
/-! DEFINITION. One step of the machine, and where a table word is placed to be the next instruction. -/

namespace Sys2Proof.Machine

/-- One step: the earliest input that can be taken is taken and served; with none the block waits unchanged (R14, log
entry 5). -/
def step (s : State) : Host.Outcome State Fault Refusal :=
  match s.nextInput with
  | none => .next s
  | some (x, rest) => serve x (s.withInbox rest)

/-- The state whose next step runs the table word `w`: its bytes are presented as a command, before every other input, on
the least idle port (port 0 after reset). -/
def State.withFetchWord (s : State) (nbits w : Nat) : State :=
  s.withInbox (.cmd s.freePort (tableBytes nbits w) :: s.inbox)

end Sys2Proof.Machine
end

