-- ==== Sys2Proof/Machine/Assembly.lean ====
section
/-! DEFINITION. The written form of commands (spec/30_encoding.md R86, R87): one line of text to the command, or the
reset event, that it spells. What R86 leaves open of the grammar is in log entry 18. -/

namespace Sys2Proof.Machine

/-- What a line spells: a command or the reset event, and the port that presents it. -/
inductive Line where
  | command (caller : Nat) (cmd : Instr)
  | construct (caller : Nat) (cid name : Option Bytes) (port : Option (BitVec 16)) (iface : Option IfSelector)
  deriving DecidableEq, Repr

/-! ### Characters, words, operands -/

/-- The double quote. -/
def quoteChar : Char := Char.ofNat 34

/-- A character between two words. -/
def isBlank (c : Char) : Bool := c == ' ' || c == '\t'

/-- The line's words: cut at blanks, but not inside quotes or brackets. `word` is the word being read, last character
first. -/
def wordsOf (quoted bracketed : Bool) (word : List Char) : List Char → List (List Char)
  | [] => if word = [] then [] else [word.reverse]
  | c :: rest =>
      if c = quoteChar then wordsOf (!quoted) bracketed (c :: word) rest
      else if quoted then wordsOf quoted bracketed (c :: word) rest
      else if c = '[' then wordsOf quoted true (c :: word) rest
      else if c = ']' then wordsOf quoted false (c :: word) rest
      else if isBlank c && !bracketed then
        if word = [] then wordsOf quoted bracketed [] rest
        else word.reverse :: wordsOf quoted bracketed [] rest
      else wordsOf quoted bracketed (c :: word) rest

/-- The text cut at every `sep`. -/
def cutAt (sep : Char) (part : List Char) : List Char → List (List Char)
  | [] => [part.reverse]
  | c :: rest => if c = sep then part.reverse :: cutAt sep [] rest else cutAt sep (c :: part) rest

/-- The text without the blanks around it. -/
def trimmed (t : List Char) : List Char := ((t.dropWhile isBlank).reverse.dropWhile isBlank).reverse

/-- `key=value`, cut at the first `=`. -/
def keyValue (key : List Char) : List Char → Option (List Char × List Char)
  | [] => none
  | c :: rest => if c = '=' then some (key.reverse, rest) else keyValue (c :: key) rest

/-- What stands between `first` and `last` when the text starts and ends with them. -/
def between (first last t : List Char) : Option (List Char) :=
  if first.isPrefixOf t && last.isSuffixOf t && decide (first.length + last.length ≤ t.length) then
    some ((t.drop first.length).take (t.length - first.length - last.length))
  else none

/-- The value of a digit in a base of at most 16. -/
def digitOf (base : Nat) (c : Char) : Option Nat :=
  let n := c.toNat
  let d := if 48 ≤ n ∧ n ≤ 57 then n - 48 else if 97 ≤ n ∧ n ≤ 102 then n - 87 else if 65 ≤ n ∧ n ≤ 70 then n - 55 else 16
  if d < base then some d else none

/-- The number whose digits follow those already read as `acc`. -/
def digitsFrom (base acc : Nat) : List Char → Option Nat
  | [] => some acc
  | c :: rest =>
      match digitOf base c with
      | some d => digitsFrom base (acc * base + d) rest
      | none => none

/-- "numbers decimal or `0x` hexadecimal" (R86). -/
def numberOf (t : List Char) : Option Nat :=
  match between ['0', 'x'] [] t with
  | some [] => none
  | some digits => digitsFrom 16 0 digits
  | none => if t = [] then none else digitsFrom 10 0 t

/-- A number that a byte can hold. -/
def byteOf (t : List Char) : Option Byte :=
  match numberOf t with
  | some n => if n < 256 then some (BitVec.ofNat 8 n) else none
  | none => none

/-- Every element read by `f`, or nothing. -/
def readAll {α β : Type} (f : α → Option β) : List α → Option (List β)
  | [] => some []
  | x :: rest =>
      match f x, readAll f rest with
      | some y, some ys => some (y :: ys)
      | _, _ => none

/-- A run of hexadecimal bytes, two digits each. -/
def hexBytes : List Char → Option Bytes
  | [] => some []
  | [_] => none
  | a :: b :: rest =>
      match digitsFrom 16 0 [a, b], hexBytes rest with
      | some n, some bytes => some (BitVec.ofNat 8 n :: bytes)
      | _, _ => none

/-- `[b0, b1, ...]`, "`data=[]` is the empty payload" (R86). -/
def byteList (t : List Char) : Option Bytes :=
  match between ['['] [']'] t with
  | some inner =>
      if trimmed inner = [] then some [] else readAll (fun item => byteOf (trimmed item)) (cutAt ',' [] inner)
  | none => none

/-- "a quoted string is its ASCII bytes" (R86). -/
def textBytes (t : List Char) : Option Bytes :=
  match between [quoteChar] [quoteChar] t with
  | some inner =>
      if inner.all fun c => decide (c.toNat < 128) && c != quoteChar then
        some (inner.map fun c => BitVec.ofNat 8 c.toNat)
      else none
  | none => none

/-- `a.b.c.d`. -/
def dottedBytes (t : List Char) : Option Bytes := readAll byteOf (cutAt '.' [] t)

/-- The operands of a line, in the order written. -/
abbrev LineOperands := List (List Char × List Char)

/-- The value written for a key. -/
def operandText (key : String) : LineOperands → Option (List Char)
  | [] => none
  | (k, v) :: rest => if k = key.toList then some v else operandText key rest

/-- The keys are among those the command has, each at most once. -/
def keysAre (keys : List String) (ops : LineOperands) : Bool :=
  ops.all (fun kv => keys.any fun k => k.toList == kv.1) && decide (ops.map Prod.fst).Nodup

/-- An operand that must be written. -/
def required {α : Type} (read : List Char → Option α) (key : String) (ops : LineOperands) : Option α :=
  match operandText key ops with
  | some t => read t
  | none => none

/-- "`none` is an absent operand" (R86). -/
def orNone {α : Type} (read : List Char → Option α) (t : List Char) : Option (Option α) :=
  if t = "none".toList then some none
  else match read t with
    | some x => some (some x)
    | none => none

/-- An operand in brackets in R86's table: absent when it is not written. -/
def optional {α : Type} (read : List Char → Option α) (key : String) (ops : LineOperands) : Option (Option α) :=
  match operandText key ops with
  | some t => orNone read t
  | none => some none

/-- `index=<n>`, `ipv4=<a.b.c.d>`, `ipv6=<hex>`, or `family=<k> sel=<hex>` (R86, R80). -/
def selectorOf (ops : LineOperands) : Option IfSelector :=
  match ops with
  | [(k, v)] =>
      if k = "index".toList then
        match numberOf v with
        | some n => if n < 2 ^ 32 then some (.byIndex (BitVec.ofNat 32 n)) else none
        | none => none
      else if k = "ipv4".toList then
        match dottedBytes v with
        | some a => if a.length = 4 then some (.byIPv4 a) else none
        | none => none
      else if k = "ipv6".toList then
        match hexBytes v with
        | some a => if a.length = 16 then some (.byIPv6 a) else none
        | none => none
      else none
  | _ =>
      if keysAre ["family", "sel"] ops then
        match required byteOf "family" ops, required hexBytes "sel" ops with
        | some kind, some sel => if 3 ≤ kind.toNat ∧ sel.length < 256 then some (.byOther kind sel) else none
        | _, _ => none
      else none

/-! ### Commands -/

/-- A send, its destination written as one of the two commands or as a tagged destination (R87). -/
inductive LineDest where
  | multicast
  | unicast (host : Bytes)
  deriving DecidableEq, Repr

/-- `Multicast` or `Unicast("<text>")` (R87). -/
def lineDest (t : List Char) : Option LineDest :=
  if t = "Multicast".toList then some .multicast
  else match between "Unicast(".toList [')'] t with
    | some host =>
        match textBytes host with
        | some b => some (.unicast b)
        | none => none
    | none => none

/-- The operands common to the sends. -/
def sendOf (dest : LineDest) (ops : LineOperands) : Option Instr :=
  match required numberOf "u" ops, required byteList "data" ops, optional byteOf "prio" ops with
  | some univ, some pay, some prio =>
      match dest with
      | .multicast => some (.sendMcast univ pay prio)
      | .unicast host => some (.sendUcast host univ pay prio)
  | _, _, _ => none

/-- The command a line's operation and operands spell (R86, R87). -/
def commandOf (op : List Char) (ops : LineOperands) : Option Instr :=
  if op = "SEND_MCAST".toList then
    if keysAre ["u", "prio", "data"] ops then sendOf .multicast ops else none
  else if op = "SEND_UCAST".toList then
    if keysAre ["host", "u", "prio", "data"] ops then
      match required textBytes "host" ops with
      | some host => sendOf (.unicast host) ops
      | none => none
    else none
  else if op = "SEND".toList then
    if keysAre ["dest", "u", "prio", "data"] ops then
      match required lineDest "dest" ops with
      | some dest => sendOf dest ops
      | none => none
    else none
  else if op = "BUILD".toList then
    if keysAre ["u", "name", "cid", "seq", "prio", "data"] ops then
      match required numberOf "u" ops, required (orNone textBytes) "name" ops, required (orNone hexBytes) "cid" ops,
        required byteOf "seq" ops, required byteList "data" ops, optional byteOf "prio" ops with
      | some univ, some name, some cid, some seq, some pay, some prio => some (.build univ name cid seq pay prio)
      | _, _, _, _, _, _ => none
    else none
  else if op = "MCAST_ADDR".toList then
    if keysAre ["u"] ops then
      match required numberOf "u" ops with
      | some univ => some (.mcastAddr univ)
      | none => none
    else none
  else if op = "SET_MCAST_IF".toList then
    match selectorOf ops with
    | some selector => some (.setMcastIf selector)
    | none => none
  else if op = "TEARDOWN".toList then
    if ops = [] then some .teardown else none
  else none

/-- A UDP port. -/
def portOf (t : List Char) : Option (BitVec 16) :=
  match numberOf t with
  | some n => if n < 65536 then some (BitVec.ofNat 16 n) else none
  | none => none

/-- The `iface` operand of `CONSTRUCT`: a selector, whose `sel` may stand beside it as a word of its own (DESIGN CHOICE, log
entry 18). -/
def ifaceOf (ops : LineOperands) : Option (Option IfSelector) :=
  let sel := ops.filter fun kv => kv.1 == "sel".toList
  match operandText "iface" ops with
  | none => if sel = [] then some none else none
  | some t =>
      if t = "none".toList then if sel = [] then some none else none
      else match keyValue [] t with
        | some kv =>
            match selectorOf (kv :: sel) with
            | some selector => some (some selector)
            | none => none
        | none => none

/-- The operands of the reset event. -/
def constructOf (caller : Nat) (ops : LineOperands) : Option Line :=
  if keysAre ["cid", "name", "port", "iface", "sel"] ops then
    match required (orNone hexBytes) "cid" ops, required (orNone textBytes) "name" ops, optional portOf "port" ops,
      ifaceOf ops with
    | some cid, some name, some port, some iface => some (.construct caller cid name port iface)
    | _, _, _, _ => none
  else none

/-- The line of a caller, as words: the operation and its operands. -/
def lineOf (caller : Nat) : List (List Char) → Option Line
  | [] => none
  | op :: rest =>
      match readAll (keyValue []) rest with
      | some ops =>
          if op = "CONSTRUCT".toList then constructOf caller ops
          else match commandOf op ops with
            | some cmd => some (.command caller cmd)
            | none => none
      | none => none

/-- R86's line of text: `@<k>:` says which caller presents it, caller 0 when it is not written. DESIGN CHOICE (log entry
18): the prefix is a word of its own, with a blank between it and the command, and none inside it. -/
def assemble (line : String) : Option Line :=
  match wordsOf false false [] line.toList with
  | [] => none
  | w :: rest =>
      match between ['@'] [':'] w with
      | some k =>
          match numberOf k with
          | some caller => lineOf caller rest
          | none => none
      | none => lineOf 0 (w :: rest)

/-- The input a line stands for: the command presented on its port, by its descriptor when it has one and otherwise as the
value itself (R76), or the reset event. A host string of more than 255 bytes is no operand (R111). -/
def Line.input : Line → Option Input
  | .command caller cmd => 
      if cmd.wellFormed then some (.cmd caller (encode cmd))
      else if cmd.isCommand then some (.command caller cmd)
      else none
  | .construct caller cid name port iface => some (.construct caller cid name port iface)

end Sys2Proof.Machine
end

