-- ==== Sys2Proof/Safety.lean ====
section
/-! DEFINITION. The terms that statements about the block use: which operands a command accepts, which descriptors are
reserved, what an issue step does, the invariants of a run, and the history read as lists. -/

namespace Sys2Proof.Machine

/-! ### Operands -/

/-- The operands `validate` accepts (R91 read the other way round, R88). -/
structure Acceptable (p : Params) (univ : Nat) (cid pay : Bytes) (prio : Byte) : Prop where
  payPresent  : 1 ≤ pay.length
  payFits     : pay.length ≤ 512
  cidFits     : cid.length = 16
  univFits    : univ < 65536
  univInRange : p.universePolicy = .reject → 1 ≤ univ ∧ univ ≤ 63999
  prioInRange : p.priorityPolicy = .reject → prio.toNat ≤ 200

/-- A send of these operands passes: the block is not torn down, holds an identity, and the operands are accepted (R113,
R172 item 2). -/
structure ReadyToSend (s : State) (univ : Nat) (pay : Bytes) (prio : Option Byte) (name cid : Bytes) : Prop where
  up         : s.tornDown = false
  named      : s.name = some name
  identified : s.cid = some cid
  accepted   : Acceptable s.params univ cid pay (priorityOf prio)

/-- The packet of R50 for these operands. -/
def packetOf (p : Params) (univ : Nat) (name cid : Bytes) (seq : Byte) (pay : Bytes) (prio : Byte) : Bytes :=
  packetLayout p.wire cid (nameField name) prio seq univ pay

end Sys2Proof.Machine

namespace Sys2Proof

/-- `i` is one of the two sends, on the universe `u`. -/
def Instr.sendsOn (u : Nat) : Instr → Prop
  | .sendMcast univ _ _ => univ = u
  | .sendUcast _ univ _ _ => univ = u
  | _ => False

/-- `i` is a send whose operands pass in `s` (R113). -/
def Instr.passesIn (s : Machine.State) : Instr → Prop
  | .sendMcast univ pay prio => ∃ name cid, Machine.ReadyToSend s univ pay prio name cid
  | .sendUcast _ univ pay prio => ∃ name cid, Machine.ReadyToSend s univ pay prio name cid
  | _ => False

end Sys2Proof

namespace Sys2Proof.Machine

/-- R82: the descriptors that spell no command. The empty string has no opcode. -/
def ReservedDescriptor (d : Bytes) : Prop :=
  d = [] ∨ byteAt d 0 = 0x00#8 ∨ 7 ≤ (byteAt d 0).toNat
  ∨ (byteAt d 0 = 0x01#8 ∧ (byteAt d 1 &&& 0xFE#8 ≠ 0#8 ∨ byteAt d 3 ≠ 0#8 ∨ d.length < 10
      ∨ d.length ≠ 10 + (byteAt d 3).toNat + readBe16 (byteAt d 8) (byteAt d 9)))
  ∨ (byteAt d 0 = 0x02#8 ∧ (byteAt d 1 &&& 0xFE#8 ≠ 0#8 ∨ d.length < 10
      ∨ d.length ≠ 10 + (byteAt d 3).toNat + readBe16 (byteAt d 8) (byteAt d 9)))
  ∨ (byteAt d 0 = 0x03#8 ∧ (byteAt d 1 &&& 0xF8#8 ≠ 0#8
      ∨ ((byteAt d 1).getLsbD 1 = false ∧ byteAt d 10 ≠ 0#8)
      ∨ ((byteAt d 1).getLsbD 2 = false ∧ readBe16 (byteAt d 11) (byteAt d 12) ≠ 0) ∨ d.length < 13
      ∨ d.length ≠ 13 + (byteAt d 10).toNat + readBe16 (byteAt d 11) (byteAt d 12)
          + readBe16 (byteAt d 8) (byteAt d 9)))
  ∨ (byteAt d 0 = 0x04#8 ∧ d.length ≠ 5)
  ∨ (byteAt d 0 = 0x05#8 ∧ ((byteAt d 1 = 0#8 ∧ byteAt d 2 ≠ 4#8) ∨ (byteAt d 1 = 1#8 ∧ byteAt d 2 ≠ 4#8)
      ∨ (byteAt d 1 = 2#8 ∧ byteAt d 2 ≠ 16#8) ∨ d.length < 3 ∨ d.length ≠ 3 + (byteAt d 2).toNat))
  ∨ (byteAt d 0 = 0x06#8 ∧ d.length ≠ 1)

/-- The input presents the instruction `i` on the port `c`: as the value itself (R76) or by a descriptor that spells it. -/
def Input.Presents (c : Nat) (i : Instr) (x : Input) : Prop :=
  x = .command c i ∨ ∃ d, x = .cmd c d ∧ decode d = .ok i

/-! ### What a step leaves alone -/

/-- R10's tuple is the same in both states: counters, control registers and pending set; and so are the parameters. -/
structure SameBlock (s t : State) : Prop where
  seq      : t.seq = s.seq
  cid      : t.cid = s.cid
  name     : t.name = s.name
  port     : t.port = s.port
  mcastIf  : t.mcastIf = s.mcastIf
  tornDown : t.tornDown = s.tornDown
  pend     : t.pend = s.pend
  params   : t.params = s.params

/-- The control registers are the same in both states (R16), and so are the parameters. -/
structure SameRegisters (s t : State) : Prop where
  cid      : t.cid = s.cid
  name     : t.name = s.name
  port     : t.port = s.port
  mcastIf  : t.mcastIf = s.mcastIf
  tornDown : t.tornDown = s.tornDown
  params   : t.params = s.params

/-- `t` is `s` after the issue step of `cmd` on `univ` to `dest` with the packet `bytes` (R113), said through the reads of
the counter file and with `PEND` as a multiset. -/
structure SendIssued (cmd : Instr) (univ : Nat) (dest : Dest) (bytes : Bytes) (s t : State) : Prop where
  counter     : t.seqRead univ = s.seqRead univ + 1
  entered     : t.inDom univ = true
  others      : ∀ v, v ≠ univ → t.seqRead v = s.seqRead v ∧ t.inDom v = s.inDom v
  queued      : t.pend.Perm
    ({ caller := s.caller, dest := dest, port := s.port, bytes := bytes, univ := univ, seq := s.seqRead univ } :: s.pend)
  recorded    : t.hist = s.hist ++ [.issued s.caller cmd univ (s.seqRead univ) dest s.port bytes]
  transmitted : t.toTransport = s.toTransport ++ [.tx dest s.port bytes]
  unanswered  : t.rsp = s.rsp
  registers   : SameRegisters s t
  caller      : t.caller = s.caller
  inbox       : t.inbox = s.inbox

/-- Both stop for the same reason, or both go on, to states that differ in `MCAST_IF` at most. -/
def AlikeButForInterface : Host.Outcome State Fault Refusal → Host.Outcome State Fault Refusal → Prop
  | .next t, .next t' => { t' with mcastIf := t.mcastIf } = t
  | .refused r, .refused r' => r = r'
  | _, _ => False

/-! ### The history read as lists -/

/-- The event with the command it names, when it names one, replaced by `cmd`. -/
def Event.naming (cmd : Instr) : Event → Event
  | .issued c _ univ seq dest port bytes => .issued c cmd univ seq dest port bytes
  | .rejected c named e => .rejected c (named.map fun _ => cmd) e
  | e => e

/-- The sequence numbers of the issue steps on the universe `u`, in their order (R21). -/
def issuedSeqs (u : Nat) (h : List Event) : Bytes :=
  h.filterMap fun e =>
    match e with
    | .issued _ _ v q _ _ _ => if v = u then some q else none
    | _ => none

/-- `0, 1, ..., n - 1`, each modulo 256. -/
def sequenceNumbers (n : Nat) : Bytes := (List.range n).map fun k => BitVec.ofNat 8 k

/-- A datagram: destination, port and bytes. -/
abbrev Datagram := Dest × BitVec 16 × Bytes

/-- The datagrams the caller `c` issued, in their order. -/
def issuedBy (c : Nat) (h : List Event) : List Datagram :=
  h.filterMap fun e =>
    match e with
    | .issued c' _ _ _ d p b => if c' = c then some (d, p, b) else none
    | _ => none

/-- The datagrams of the caller `c` that were completed, in their order. -/
def completedFor (c : Nat) (h : List Event) : List Datagram :=
  h.filterMap fun e =>
    match e with
    | .completed c' d p b _ => if c' = c then some (d, p, b) else none
    | _ => none

/-- The datagrams of the caller `c` that are pending. -/
def pendingFor (c : Nat) (pend : List PendEntry) : List Datagram :=
  pend.filterMap fun e => if e.caller = c then some (e.dest, e.port, e.bytes) else none

/-- The datagram an event hands to the TRANSPORT. -/
def Event.datagram : Event → Option Datagram
  | .issued _ _ _ _ d p b => some (d, p, b)
  | _ => none

/-- The datagram of a message to the TRANSPORT. -/
def TransportMsg.datagram : TransportMsg → Option Datagram
  | .tx d p b => some (d, p, b)
  | _ => none

/-- The response that goes with an event, and to whom: every event but an issue step has one (R19, R83, R118). -/
def Event.response : Event → Option (Nat × Response)
  | .issued .. => none
  | .rejected c _ e => some (c, .err e)
  | .completed c _ _ _ st => some (c, st.response)
  | .built c r => some (c, .ok r)
  | .configured c _ none => some (c, .ok [])
  | .configured c _ (some e) => some (c, .err e)
  | .tornDown c => some (c, .ok [])

/-! ### Invariants of a run -/

/-- A pending entry as R17 has it, and as the issue step made it: its port exists, its UDP port is the register's, its
packet has a legal length and carries its universe and its sequence number, its universe is in `dom(SEQ)`, and a multicast
destination is the address derived from it (R110, R112). -/
structure PendEntry.Sound (s : State) (e : PendEntry) : Prop where
  portExists : e.caller < s.params.nports
  udpPort    : e.port = s.port
  shortest   : 127 ≤ e.bytes.length
  longest    : e.bytes.length ≤ 638
  seqByte    : byteAt e.bytes 111 = e.seq
  univBytes  : readBe16 (byteAt e.bytes 113) (byteAt e.bytes 114) = e.univ
  univFits   : e.univ < 65536
  univSeen   : s.inDom e.univ = true
  dest       : e.dest = mcastAddr s.params e.univ ∨ ∃ host, e.dest = .ucast host

/-- The invariant of the state: the counter file is canonical (R11), a caller has at most one pending entry and the set is
in its canonical order (R17), each entry is sound, no transmission is pending once the block is torn down (R131, R132),
the range policy kept the universes it rejects out of the counter file (R11), and `MCAST_IF` holds a selector of a
supported family or none (R16). -/
structure State.Inv (s : State) : Prop where
  counters  : Memory.wf s.seq = true
  callers   : s.pend.Pairwise fun a b => a.caller < b.caller
  entries   : ∀ e ∈ s.pend, e.Sound s
  quiet     : s.tornDown = true → s.pend = []
  inRange   : s.params.universePolicy = .reject → ∀ u, s.inDom u = true → 1 ≤ u ∧ u ≤ 63999
  interface : ∀ sel, s.mcastIf = some sel → familyOf sel ∈ s.params.ifFamilies

/-- Sequence numbering (R21 (b), R23, R38 item 1): on every universe the issue steps carried `0, 1, 2, ...` modulo 256,
the counter holds their number modulo 256, and the universe is in `dom(SEQ)` exactly when there was one. -/
def State.Numbered (s : State) : Prop :=
  ∀ u, issuedSeqs u s.hist = sequenceNumbers (issuedSeqs u s.hist).length
    ∧ s.seqRead u = BitVec.ofNat 8 (issuedSeqs u s.hist).length
    ∧ (s.inDom u = true ↔ issuedSeqs u s.hist ≠ [])

/-- The channels and the pending set agree with the history: the responses given are those of its events (R83: one for each
command, none for a send before its completion), the datagrams handed over are those of its issue steps (R84), and each
caller's issued datagrams are its completed ones followed by its pending one (R38 items 2, 4 and 5). -/
structure State.Recorded (s : State) : Prop where
  answered    : s.rsp = s.hist.filterMap Event.response
  transmitted : s.toTransport.filterMap TransportMsg.datagram = s.hist.filterMap Event.datagram
  conserved   : ∀ c, issuedBy c s.hist = completedFor c s.hist ++ pendingFor c s.pend

/-- Runs a list of instructions for the caller in service, one after another, while each answers a next state. -/
def execAll : List Instr → State → Option State
  | [], s => some s
  | i :: rest, s =>
      match exec i s with
      | .next t => execAll rest t
      | _ => none

end Sys2Proof.Machine
end

