-- ==== Sys2Proof/Certificates/Slice0/Obligations.lean ====
section
/-! DEFINITION. The statements for the provers, family by family of the spec: encodings, the step, the Packet Builder, the
Sender, the configuration commands and reset, errors and responses, and the rules of the whole machine. -/

open Sys2Proof Sys2Proof.Machine

/-! ### Encodings (30_encoding.md) -/

/-- Decoding the encoding of a well-formed instruction gives it back, for every row of the table and every operand. -/
def Obligations.DecodeOfEncode : Prop :=
  ∀ i : Instr, i.wellFormed = true → decode (encode i) = .ok i

/-- The other direction: what a byte string decodes to is well formed, and encodes to that very string, but for the
priority byte of a command whose `HAS_PRIO` bit is 0, which R77 says is ignored and the encoder writes as `00`. -/
def Obligations.EncodeOfDecode : Prop :=
  ∀ (d : Bytes) (i : Instr), decode d = .ok i →
    i.wellFormed = true ∧ (encode i = d ∨ ((byteAt d 1).getLsbD 0 = false ∧ encode i = d.set 2 0))

/-- Descriptors written out in 95_test_vectors.md V9 decode to the commands they stand for, one for each format, and the
packet of V7a decodes to its fields. -/
def Obligations.VectorWordsDecode : Prop :=
  decode [0x01, 0x00, 0x00, 0x00, 0x00, 0x00, 0x00, 0x01, 0x00, 0x03, 0xFF, 0x00, 0x80]
      = .ok (.sendMcast 1 [255, 0, 128] none)
  ∧ decode [0x02, 0x01, 0x96, 0x08, 0x00, 0x00, 0x00, 0x02, 0x00, 0x01, 0x31, 0x30, 0x2E, 0x30, 0x2E, 0x30, 0x2E, 0x37, 0x01]
      = .ok (.sendUcast [0x31, 0x30, 0x2E, 0x30, 0x2E, 0x30, 0x2E, 0x37] 2 [1] (some 150))
  ∧ decode ([0x03, 0x06, 0x00, 0x00, 0x00, 0x00, 0x00, 0x01, 0x00, 0x03, 0x10, 0x00, 0x04]
        ++ [0x00, 0x01, 0x02, 0x03, 0x04, 0x05, 0x06, 0x07, 0x08, 0x09, 0x0A, 0x0B, 0x0C, 0x0D, 0x0E, 0x0F]
        ++ [0x54, 0x65, 0x73, 0x74] ++ [0xFF, 0x00, 0x80])
      = .ok (.build 1 (some [0x54, 0x65, 0x73, 0x74])
          (some [0x00, 0x01, 0x02, 0x03, 0x04, 0x05, 0x06, 0x07, 0x08, 0x09, 0x0A, 0x0B, 0x0C, 0x0D, 0x0E, 0x0F])
          0 [255, 0, 128] none)
  ∧ decode [0x04, 0x00, 0x00, 0x02, 0x01] = .ok (.mcastAddr 513)
  ∧ decode [0x05, 0x01, 0x04, 0xC0, 0xA8, 0x01, 0x0A] = .ok (.setMcastIf (.byIPv4 [0xC0, 0xA8, 0x01, 0x0A]))
  ∧ decode [0x05, 0x00, 0x04, 0x00, 0x00, 0x00, 0x03] = .ok (.setMcastIf (.byIndex 3))
  ∧ decode [0x05, 0x07, 0x01, 0x00] = .ok (.setMcastIf (.byOther 7 [0]))
  ∧ decode [0x06] = .ok .teardown
  ∧ decode ([0x00, 0x10, 0x00, 0x00, 0x41, 0x53, 0x43, 0x2D, 0x45, 0x31, 0x2E, 0x31, 0x37, 0x00, 0x00, 0x00]
        ++ [0x70, 0x6F, 0x00, 0x00, 0x00, 0x04, 0x00, 0x01, 0x02, 0x03, 0x04, 0x05, 0x06, 0x07, 0x08, 0x09]
        ++ [0x0A, 0x0B, 0x0C, 0x0D, 0x0E, 0x0F, 0x70, 0x59, 0x00, 0x00, 0x00, 0x02] ++ zeros 64
        ++ [0xC8, 0x00, 0x00, 0xFF, 0x00, 0xF9, 0xFF]
        ++ [0x70, 0x0C, 0x02, 0xA1, 0x00, 0x00, 0x00, 0x01, 0x00, 0x02, 0x00, 0x7F])
      = .ok (.e131DataPacket
          [0x00, 0x01, 0x02, 0x03, 0x04, 0x05, 0x06, 0x07, 0x08, 0x09, 0x0A, 0x0B, 0x0C, 0x0D, 0x0E, 0x0F]
          (zeros 64) 200 255 63999 [0x7F])

/-- Commands in the written form of R86 and R87 and their descriptors: each of the six commands under its own name, each
of the four forms of the interface selector, the tagged destination of R87 behind a caller prefix, and the reset event.
The descriptors are those of 95_test_vectors.md V9, but for `ipv6`, which is in no vector and has the bytes of R80, and the
reset event, which has no descriptor; a command that no descriptor spells is presented as the value itself. The model's choices in these lines (log entry 18): the blank behind the caller
prefix, and the spelling `iface=index=3` of the interface operand. -/
def Obligations.WrittenLinesAssemble : Prop :=
  ((assemble "SEND_MCAST u=1 prio=100 data=[255,0,128]").bind Line.input)
      = some (.cmd 0 [0x01, 0x01, 0x64, 0x00, 0x00, 0x00, 0x00, 0x01, 0x00, 0x03, 0xFF, 0x00, 0x80])
  ∧ ((assemble "SEND_UCAST host=\"10.0.0.7\" u=2 prio=150 data=[1]").bind Line.input)
      = some (.cmd 0
          [0x02, 0x01, 0x96, 0x08, 0x00, 0x00, 0x00, 0x02, 0x00, 0x01, 0x31, 0x30, 0x2E, 0x30, 0x2E, 0x30, 0x2E, 0x37, 0x01])
  ∧ ((assemble "@1: SEND dest=Unicast(\"10.0.0.7\") u=2 prio=0x96 data=[1]").bind Line.input)
      = some (.cmd 1
          [0x02, 0x01, 0x96, 0x08, 0x00, 0x00, 0x00, 0x02, 0x00, 0x01, 0x31, 0x30, 0x2E, 0x30, 0x2E, 0x30, 0x2E, 0x37, 0x01])
  ∧ ((assemble "BUILD u=1 name=\"Test\" cid=000102030405060708090A0B0C0D0E0F seq=0 data=[255, 0, 128]").bind Line.input)
      = some (.cmd 0 ([0x03, 0x06, 0x00, 0x00, 0x00, 0x00, 0x00, 0x01, 0x00, 0x03, 0x10, 0x00, 0x04]
        ++ [0x00, 0x01, 0x02, 0x03, 0x04, 0x05, 0x06, 0x07, 0x08, 0x09, 0x0A, 0x0B, 0x0C, 0x0D, 0x0E, 0x0F]
        ++ [0x54, 0x65, 0x73, 0x74] ++ [0xFF, 0x00, 0x80]))
  ∧ ((assemble "MCAST_ADDR u=513").bind Line.input) = some (.cmd 0 [0x04, 0x00, 0x00, 0x02, 0x01])
  ∧ ((assemble "MCAST_ADDR u=0x100000000").bind Line.input) = some (.command 0 (.mcastAddr 4294967296))
  ∧ ((assemble "SET_MCAST_IF ipv4=192.168.1.10").bind Line.input)
      = some (.cmd 0 [0x05, 0x01, 0x04, 0xC0, 0xA8, 0x01, 0x0A])
  ∧ ((assemble "SET_MCAST_IF index=3").bind Line.input) = some (.cmd 0 [0x05, 0x00, 0x04, 0x00, 0x00, 0x00, 0x03])
  ∧ ((assemble "SET_MCAST_IF ipv6=20010DB8000000000000000000000001").bind Line.input)
      = some (.cmd 0 ([0x05, 0x02, 0x10, 0x20, 0x01, 0x0D, 0xB8] ++ zeros 11 ++ [0x01]))
  ∧ ((assemble "SET_MCAST_IF family=7 sel=00").bind Line.input) = some (.cmd 0 [0x05, 0x07, 0x01, 0x00])
  ∧ ((assemble "TEARDOWN").bind Line.input) = some (.cmd 0 [0x06])
  ∧ ((assemble "CONSTRUCT cid=none name=\"a b\" port=6000 iface=index=3").bind Line.input)
      = some (.construct 0 none (some [0x61, 0x20, 0x62]) (some 6000) (some (.byIndex 3)))

/-- The decoder refuses exactly the reserved descriptors of R82 that are not the bytes of a packet (whose opcode byte
`0x00` is reserved too, log entry 4): it refuses no command and accepts no reserved descriptor as one. -/
def Obligations.DecoderRefusesExactlyTheReserved : Prop :=
  ∀ d : Bytes, (∃ r, decode d = .error r) ↔
    ReservedDescriptor d ∧ ¬ ∃ cid name prio seq univ pay,
      (Instr.e131DataPacket cid name prio seq univ pay).wellFormed = true
        ∧ encode (.e131DataPacket cid name prio seq univ pay) = d

/-! ### The step -/

/-- A step runs the decoded instruction: when the input taken is a descriptor that decodes to `i`, or `i` itself as R76's
value, the step is `exec i` at the state in which that input is gone and its port is the one in service. -/
def Obligations.StepRunsTheDecodedInstruction : Prop :=
  ∀ (s : State) (c : Nat) (x : Input) (rest : List Input) (i : Instr),
    s.nextInput = some (x, rest) → (∃ d, x = .cmd c d ∧ decode d = .ok i) ∨ x = .command c i →
    step s = exec i { s with inbox := rest, caller := c }

/-- Which input a step takes (the model's reading of R38 and R181, log entry 5): the earliest that can be taken; a command
(a descriptor, or a value of R76's type) can be taken when its port exists and has no transmission pending, a completion when its caller has a pending entry that
the status can answer, and the reset event always. With none, the step changes nothing. -/
def Obligations.StepTakesTheEarliestPossibleInput : Prop :=
  ∀ s : State,
    (s.nextInput = none → (∀ x ∈ s.inbox, x.enabled s = false) ∧ step s = .next s)
    ∧ (∀ x rest, s.nextInput = some (x, rest) →
        ∃ before after, s.inbox = before ++ x :: after ∧ rest = before ++ after
          ∧ x.enabled s = true ∧ (∀ y ∈ before, y.enabled s = false))
    ∧ (∀ c d, (Input.cmd c d).enabled s = true ↔ c < s.params.nports ∧ ∀ e ∈ s.pend, e.caller ≠ c)
    ∧ (∀ c i, (Input.command c i).enabled s = true ↔
        (c < s.params.nports ∧ ∀ e ∈ s.pend, e.caller ≠ c) ∧ i.isCommand = true)
    ∧ (∀ c st, (Input.txs c st).enabled s = true →
        ∃ e ∈ s.pend, e.caller = c ∧ (st = .resolveFail → ∃ host, e.dest = .ucast host))
    ∧ ((s.pend.Pairwise fun a b => a.caller < b.caller) → ∀ e ∈ s.pend, ∀ st,
        (st = .resolveFail → ∃ host, e.dest = .ucast host) → (Input.txs e.caller st).enabled s = true)
    ∧ (∀ c cid name port iface, (Input.construct c cid name port iface).enabled s = true)

/-- A table word placed by `withFetchWord` is what the next step runs, on a port that exists and is idle. -/
def Obligations.PlacedWordRunsNext : Prop :=
  ∀ (s : State) (nbits w : Nat) (i : Instr),
    decodeTableWord nbits w = some i → (∃ c, c < s.params.nports ∧ s.busy c = false) →
    ∃ c, c < s.params.nports ∧ s.busy c = false
      ∧ step (s.withFetchWord nbits w) = exec i { s with caller := c }

/-- R82's answer: a step that takes a reserved descriptor answers `BadCommand(RESERVED_ENCODING)` to its caller, changes no
state of the block and emits nothing. -/
def Obligations.ReservedDescriptorAnswered : Prop :=
  ∀ (s : State) (c : Nat) (d : Bytes) (rest : List Input),
    s.nextInput = some (.cmd c d, rest) → ReservedDescriptor d →
    ∃ t, step s = .next t ∧ t.rsp = s.rsp ++ [(c, .err (.badCommand .reservedEncoding))]
      ∧ SameBlock s t ∧ t.toTransport = s.toTransport

/-! ### The Packet Builder (40_packet_builder.md) -/

/-- `build` writes every byte of its buffer (R32: no gap and no overlap): from any buffer of `126 + L` bytes, whatever it
holds, the three writes leave the packet of R50. -/
def Obligations.BuilderWritesTheLayout : Prop :=
  ∀ (w : WireConstants) (name cid : Bytes) (seq : Byte) (univ : Nat) (pay : Bytes) (prio : Byte) (out : Bytes),
    cid.length = 16 → out.length = 126 + pay.length →
    writePacket w name cid seq univ pay prio out = packetLayout w cid (nameField name) prio seq univ pay

/-- `build` is total on valid input (R96): it answers `Ok` when `validate` finds no cause, and otherwise the cause that
`validate` finds; there is no other failure. A rejection is reported to the caller in the step of the command itself, with
no message to the TRANSPORT and nothing left to retry: `BUILD` answers the cause, and so do both sends of a block that is
up. -/
def Obligations.BuildFailsOnlyByValidation : Prop :=
  ∀ (p : Params) (univ : Nat) (name cid : Option Bytes) (seq : Byte) (pay : Bytes) (prio : Byte),
    (validate p univ name cid pay prio = none →
        ∃ bytes, build p univ name cid seq pay prio = .ok bytes ∧ bytes.length = 126 + pay.length)
    ∧ (∀ cause, build p univ name cid seq pay prio = .error cause ↔ validate p univ name cid pay prio = some cause)
    ∧ ∀ (s : State) (host : Bytes) (i : Instr) (cause : EncodingCause),
        s.params = p → validate p univ name cid pay prio = some cause →
        i = .build univ name cid seq pay (some prio)
          ∨ (s.tornDown = false ∧ s.name = name ∧ s.cid = cid
              ∧ (i = .sendMcast univ pay (some prio) ∨ i = .sendUcast host univ pay (some prio))) →
        exec i s = .next { s with
          hist := s.hist ++ [.rejected s.caller (some i) (.encoding cause)]
          rsp  := s.rsp ++ [(s.caller, .err (.encoding cause))] }

/-- The order of the checks (R91, decision D16): each cause is reported exactly when its condition holds and no earlier one
does, and none is reported exactly when the operands are accepted. -/
def Obligations.ValidationReportsTheFirstCause : Prop :=
  ∀ (p : Params) (univ : Nat) (name cid : Option Bytes) (pay : Bytes) (prio : Byte),
    (validate p univ name cid pay prio = some .payloadEmpty ↔ pay.length = 0)
    ∧ (validate p univ name cid pay prio = some .payloadTooLong ↔ 512 < pay.length)
    ∧ (validate p univ name cid pay prio = some .cidMissing ↔ 1 ≤ pay.length ∧ pay.length ≤ 512 ∧ cid = none)
    ∧ (validate p univ name cid pay prio = some .cidMalformed ↔
        1 ≤ pay.length ∧ pay.length ≤ 512 ∧ ∃ c, cid = some c ∧ c.length ≠ 16)
    ∧ (validate p univ name cid pay prio = some .nameMissing ↔
        1 ≤ pay.length ∧ pay.length ≤ 512 ∧ (∃ c, cid = some c ∧ c.length = 16) ∧ name = none)
    ∧ (validate p univ name cid pay prio = some .universeNot16Bit ↔
        1 ≤ pay.length ∧ pay.length ≤ 512 ∧ (∃ c, cid = some c ∧ c.length = 16) ∧ (∃ n, name = some n)
          ∧ 65536 ≤ univ)
    ∧ (validate p univ name cid pay prio = some .universeOutOfRange ↔
        1 ≤ pay.length ∧ pay.length ≤ 512 ∧ (∃ c, cid = some c ∧ c.length = 16) ∧ (∃ n, name = some n)
          ∧ p.universePolicy = .reject ∧ (univ = 0 ∨ (64000 ≤ univ ∧ univ < 65536)))
    ∧ (validate p univ name cid pay prio = some .priorityOutOfRange ↔
        1 ≤ pay.length ∧ pay.length ≤ 512 ∧ (∃ c, cid = some c ∧ c.length = 16) ∧ (∃ n, name = some n)
          ∧ univ < 65536 ∧ (p.universePolicy = .reject → 1 ≤ univ ∧ univ ≤ 63999)
          ∧ p.priorityPolicy = .reject ∧ 200 < prio.toNat)
    ∧ (validate p univ name cid pay prio = none ↔
        ∃ n c, name = some n ∧ cid = some c ∧ Acceptable p univ c pay prio)

/-- The packet field by field at the offsets of R50, with the E1.31 constants (G1 to G7, log entry 1): what `build` answers
on accepted operands. -/
def Obligations.PacketFieldsStandAtTheirOffsets : Prop :=
  ∀ (p : Params) (univ : Nat) (name cid : Bytes) (seq : Byte) (pay : Bytes) (prio : Byte),
    p.wire = .e131 → Acceptable p univ cid pay prio →
    ∃ b, build p univ (some name) (some cid) seq pay prio = .ok b
      ∧ b.length = 126 + pay.length
      ∧ slice b 0 4 = [0x00, 0x10, 0x00, 0x00]
      ∧ slice b 4 16 = [0x41, 0x53, 0x43, 0x2D, 0x45, 0x31, 0x2E, 0x31, 0x37, 0x00, 0x00, 0x00]
      ∧ slice b 16 18 = be16 (0x7000 + (110 + pay.length)) ∧ slice b 18 22 = [0x00, 0x00, 0x00, 0x04]
      ∧ slice b 22 38 = cid
      ∧ slice b 38 40 = be16 (0x7000 + (88 + pay.length)) ∧ slice b 40 44 = [0x00, 0x00, 0x00, 0x02]
      ∧ slice b 44 108 = nameField name ∧ byteAt b 108 = prio ∧ slice b 109 111 = [0x00, 0x00] ∧ byteAt b 111 = seq
      ∧ byteAt b 112 = 0x00 ∧ slice b 113 115 = be16 univ
      ∧ slice b 115 117 = be16 (0x7000 + (11 + pay.length)) ∧ byteAt b 117 = 0x02 ∧ byteAt b 118 = 0xA1
      ∧ slice b 119 121 = [0x00, 0x00] ∧ slice b 121 123 = [0x00, 0x01] ∧ slice b 123 125 = be16 (pay.length + 1)
      ∧ byteAt b 125 = 0x00 ∧ slice b 126 (126 + pay.length) = pay

/-- The fields whose values the source itself gives, for every value of the other constants: the CID copied (R56), the
synchronization address and the options always 0 (R62, R63), the universe in two bytes, the higher first (R64), the first
property address 0 and the address increment 1 (R67, R68), the property value count, 2 to 513 (R69), the start code 0
(R70), and the slot data unchanged and in order (R71). -/
def Obligations.SourceFieldsInThePacket : Prop :=
  ∀ (p : Params) (univ : Nat) (name : Option Bytes) (cid : Bytes) (seq : Byte) (pay : Bytes) (prio : Byte) (b : Bytes),
    build p univ name (some cid) seq pay prio = .ok b →
    cid.length = 16 ∧ (∀ i, i < 16 → byteAt b (22 + i) = byteAt cid i)
    ∧ byteAt b 109 = 0 ∧ byteAt b 110 = 0 ∧ byteAt b 112 = 0
    ∧ (byteAt b 113).toNat = univ / 256 ∧ (byteAt b 114).toNat = univ % 256
    ∧ byteAt b 119 = 0 ∧ byteAt b 120 = 0 ∧ byteAt b 121 = 0 ∧ byteAt b 122 = 1
    ∧ readBe16 (byteAt b 123) (byteAt b 124) = pay.length + 1 ∧ 1 ≤ pay.length ∧ pay.length ≤ 512
    ∧ byteAt b 125 = 0
    ∧ b.length = 126 + pay.length ∧ ∀ i, i < pay.length → byteAt b (126 + i) = byteAt pay i

/-- A reader tells the payload length from the length of the packet or from any of its four length fields, and the high
nibble of each flags-and-length field is 7 (R52, R89). -/
def Obligations.LengthFieldsAgree : Prop :=
  ∀ (p : Params) (univ : Nat) (name cid : Option Bytes) (seq : Byte) (pay : Bytes) (prio : Byte) (b : Bytes),
    build p univ name cid seq pay prio = .ok b →
    lengthField b 16 = b.length - 16 ∧ lengthField b 38 = b.length - 38 ∧ lengthField b 115 = b.length - 115
    ∧ readBe16 (byteAt b 123) (byteAt b 124) - 1 = b.length - 126
    ∧ (byteAt b 16).toNat / 16 = 7 ∧ (byteAt b 38).toNat / 16 = 7 ∧ (byteAt b 115).toNat / 16 = 7

/-- The round trip of R98: the reader of R75 recovers universe, priority, sequence number, CID and payload of every packet
built, and the name as its 64-byte field, which is the name and zeros when it has at most 64 bytes and its first 64 bytes
when it has more. -/
def Obligations.BuiltPacketReadsBack : Prop :=
  ∀ (p : Params) (univ : Nat) (name cid : Bytes) (seq : Byte) (pay : Bytes) (prio : Byte),
    validate p univ (some name) (some cid) pay prio = none →
    ∃ b, build p univ (some name) (some cid) seq pay prio = .ok b
      ∧ decodeFields b = some (.e131DataPacket cid (nameField name) prio seq univ pay)
      ∧ (name.length ≤ 64 → nameField name = name ++ zeros (64 - name.length))
      ∧ (64 < name.length → nameField name = name.take 64)

/-- The name field (R58): 64 bytes, each the name's byte at that place, or zero past the name's end. -/
def Obligations.NameFieldTruncatesOrPads : Prop :=
  ∀ name : Bytes, (nameField name).length = 64
    ∧ ∀ i, i < 64 → byteAt (nameField name) i = if i < name.length then byteAt name i else 0

/-- `BUILD` completes on accepted operands (R95): it answers the packet, records it, and changes nothing else, in every
state. -/
def Obligations.BuildCommandAnswersThePacket : Prop :=
  ∀ (s : State) (univ : Nat) (name cid : Bytes) (seq : Byte) (pay : Bytes) (prio : Option Byte),
    Acceptable s.params univ cid pay (prio.getD 100) →
    exec (.build univ (some name) (some cid) seq pay prio) s =
      .next { s with
        hist := s.hist ++ [.built s.caller (packetOf s.params univ name cid seq pay (prio.getD 100))]
        rsp  := s.rsp ++ [(s.caller, .ok (packetOf s.params univ name cid seq pay (prio.getD 100)))] }

/-- `BUILD` with a cause to reject (R91, R95): it answers `EncodingError` with that cause and changes nothing else. -/
def Obligations.BuildCommandAnswersTheCause : Prop :=
  ∀ (s : State) (univ : Nat) (name cid : Option Bytes) (seq : Byte) (pay : Bytes) (prio : Option Byte)
    (cause : EncodingCause),
    validate s.params univ name cid pay (prio.getD 100) = some cause →
    exec (.build univ name cid seq pay prio) s =
      .next { s with
        hist := s.hist ++ [.rejected s.caller (some (.build univ name cid seq pay prio)) (.encoding cause)]
        rsp  := s.rsp ++ [(s.caller, .err (.encoding cause))] }

/-- The example of the source, completed with the spec's CID (R97): 129 bytes. -/
def Obligations.SourceExamplePacket : Prop :=
  build .default 1 (some [0x54, 0x65, 0x73, 0x74])
      (some [0x00, 0x01, 0x02, 0x03, 0x04, 0x05, 0x06, 0x07, 0x08, 0x09, 0x0A, 0x0B, 0x0C, 0x0D, 0x0E, 0x0F])
      0 [255, 0, 128] 100
    = .ok ([0x00, 0x10, 0x00, 0x00, 0x41, 0x53, 0x43, 0x2D, 0x45, 0x31, 0x2E, 0x31, 0x37, 0x00, 0x00, 0x00]
        ++ [0x70, 0x71, 0x00, 0x00, 0x00, 0x04, 0x00, 0x01, 0x02, 0x03, 0x04, 0x05, 0x06, 0x07, 0x08, 0x09]
        ++ [0x0A, 0x0B, 0x0C, 0x0D, 0x0E, 0x0F, 0x70, 0x5B, 0x00, 0x00, 0x00, 0x02, 0x54, 0x65, 0x73, 0x74]
        ++ zeros 60 ++ [0x64, 0x00, 0x00, 0x00, 0x00, 0x00, 0x01]
        ++ [0x70, 0x0E, 0x02, 0xA1, 0x00, 0x00, 0x00, 0x01, 0x00, 0x04, 0x00, 0xFF, 0x00, 0x80])

/-- The packet presented as a descriptor completes by the answer R82 gives its opcode byte `0x00` (R76; log entry 4):
`BadCommand(RESERVED_ENCODING)`, with nothing else changed but the record of it. -/
def Obligations.PacketAsCommandAnsweredReserved : Prop :=
  ∀ (s : State) (cid name : Bytes) (prio seq : Byte) (univ : Nat) (pay : Bytes),
    exec (.e131DataPacket cid name prio seq univ pay) s =
      .next { s with
        hist := s.hist ++ [.rejected s.caller none (.badCommand .reservedEncoding)]
        rsp  := s.rsp ++ [(s.caller, .err (.badCommand .reservedEncoding))] }

/-! ### The Sender (41_sender.md) -/

/-- `SEND_MCAST` completes its issue step when the block is up, holds an identity and the operands are accepted (R110,
R113): the packet carries the counter read before the increment, the counter advances by one modulo 256, no other counter
moves, the datagram for the derived address and the register's port is handed over and queued, and there is no response
yet. -/
def Obligations.SendMcastIssues : Prop :=
  ∀ (s : State) (univ : Nat) (pay : Bytes) (prio : Option Byte) (name cid : Bytes),
    ReadyToSend s univ pay prio name cid →
    ∃ t, exec (.sendMcast univ pay prio) s = .next t
      ∧ SendIssued (.sendMcast univ pay prio) univ
          (.mcast s.params.wire.mcastBase0 s.params.wire.mcastBase1 (BitVec.ofNat 8 (univ / 256)) (BitVec.ofNat 8 univ))
          (packetOf s.params univ name cid (s.seqRead univ) pay (prio.getD 100)) s t

/-- `SEND_UCAST` completes its issue step under the same conditions (R111, R113), for the host string as it was given. -/
def Obligations.SendUcastIssues : Prop :=
  ∀ (s : State) (host : Bytes) (univ : Nat) (pay : Bytes) (prio : Option Byte) (name cid : Bytes),
    ReadyToSend s univ pay prio name cid →
    ∃ t, exec (.sendUcast host univ pay prio) s = .next t
      ∧ SendIssued (.sendUcast host univ pay prio) univ (.ucast host)
          (packetOf s.params univ name cid (s.seqRead univ) pay (prio.getD 100)) s t

/-- A send with a cause to reject, in a block that is up (R113): it answers `EncodingError` with that cause; the counters
and their domain, `PEND`, the registers and the TRANSPORT see nothing of it. -/
def Obligations.RejectedSendChangesNothing : Prop :=
  ∀ (s : State) (host : Bytes) (univ : Nat) (pay : Bytes) (prio : Option Byte) (cause : EncodingCause),
    s.tornDown = false → validate s.params univ s.name s.cid pay (prio.getD 100) = some cause →
    exec (.sendMcast univ pay prio) s =
        .next { s with
          hist := s.hist ++ [.rejected s.caller (some (.sendMcast univ pay prio)) (.encoding cause)]
          rsp  := s.rsp ++ [(s.caller, .err (.encoding cause))] }
    ∧ exec (.sendUcast host univ pay prio) s =
        .next { s with
          hist := s.hist ++ [.rejected s.caller (some (.sendUcast host univ pay prio)) (.encoding cause)]
          rsp  := s.rsp ++ [(s.caller, .err (.encoding cause))] }

/-- The two sends make the same packet and move the same counter (R111): from one state, a multicast and a unicast send of
the same universe, payload and priority leave the same counter file and hand over datagrams that differ in the destination
alone. -/
def Obligations.PacketDoesNotDependOnDestination : Prop :=
  ∀ (s t t' : State) (host : Bytes) (univ : Nat) (pay : Bytes) (prio : Option Byte),
    exec (.sendMcast univ pay prio) s = .next t → exec (.sendUcast host univ pay prio) s = .next t' →
    t.seq = t'.seq
    ∧ ((t.toTransport = s.toTransport ∧ t'.toTransport = s.toTransport)
      ∨ ∃ dest bytes, t.toTransport = s.toTransport ++ [.tx dest s.port bytes]
          ∧ t'.toTransport = s.toTransport ++ [.tx (.ucast host) s.port bytes])

/-- The destination port of every datagram is the register `PORT` (R121): what a send hands to the TRANSPORT, if anything,
is one datagram for that port, and the pending entry it adds holds that port. -/
def Obligations.DatagramsGoToTheConfiguredPort : Prop :=
  ∀ (i : Instr) (u : Nat) (s t : State), i.sendsOn u → exec i s = .next t →
    (t.toTransport = s.toTransport ∧ t.pend = s.pend)
    ∨ ∃ dest bytes e, t.toTransport = s.toTransport ++ [.tx dest s.port bytes]
        ∧ t.pend.Perm (e :: s.pend) ∧ e.port = s.port ∧ e.dest = dest ∧ e.bytes = bytes

/-- Independence (R119): an issue step on the universe `u`, whatever it answers, leaves the counter of every other universe
unchanged, and its presence in `dom(SEQ)` too. -/
def Obligations.SendLeavesOtherCountersAlone : Prop :=
  ∀ (i : Instr) (u : Nat) (s t : State), i.sendsOn u → exec i s = .next t →
    ∀ v, v ≠ u → t.seqRead v = s.seqRead v ∧ t.inDom v = s.inDom v

/-- The default priority (R115 for the sends, decision D24 of the spec for `BUILD`): each command that takes a priority
behaves identically when it gives 100 and when it gives none. Each records one event, and the two next states are equal but
for the command that this event names, when it names one: the command as it was given. An accepted `BUILD` names none. -/
def Obligations.OmittedPriorityIsOneHundred : Prop :=
  ∀ (s : State) (host : Bytes) (univ : Nat) (name cid : Option Bytes) (seq : Byte) (pay : Bytes),
    (∃ t event, exec (.sendMcast univ pay none) s = .next t ∧ t.hist = s.hist ++ [event]
      ∧ event.naming (.sendMcast univ pay none) = event
      ∧ exec (.sendMcast univ pay (some 100)) s =
          .next { t with hist := s.hist ++ [event.naming (.sendMcast univ pay (some 100))] })
    ∧ (∃ t event, exec (.sendUcast host univ pay none) s = .next t ∧ t.hist = s.hist ++ [event]
      ∧ event.naming (.sendUcast host univ pay none) = event
      ∧ exec (.sendUcast host univ pay (some 100)) s =
          .next { t with hist := s.hist ++ [event.naming (.sendUcast host univ pay (some 100))] })
    ∧ (∃ t event, exec (.build univ name cid seq pay none) s = .next t ∧ t.hist = s.hist ++ [event]
      ∧ event.naming (.build univ name cid seq pay none) = event
      ∧ exec (.build univ name cid seq pay (some 100)) s =
          .next { t with hist := s.hist ++ [event.naming (.build univ name cid seq pay (some 100))] })
    ∧ (validate s.params univ name cid pay 100 = none →
        exec (.build univ name cid seq pay none) s = exec (.build univ name cid seq pay (some 100)) s)

/-- Issue steps on different universes commute (R37): two callers' sends on different universes, whatever they answer,
leave the same counter file, the same pending set and each caller the same responses, in either order. -/
def Obligations.SendsOnDifferentUniversesCommute : Prop :=
  ∀ (i j : Instr) (u v c d : Nat) (s s1 s12 s2 s21 : State),
    i.sendsOn u → j.sendsOn v → u ≠ v → c ≠ d → Memory.wf s.seq = true →
    (s.pend.Pairwise fun a b => a.caller < b.caller) → (∀ e ∈ s.pend, e.caller ≠ c ∧ e.caller ≠ d) →
    exec i { s with caller := c } = .next s1 → exec j { s1 with caller := d } = .next s12 →
    exec j { s with caller := d } = .next s2 → exec i { s2 with caller := c } = .next s21 →
    s12.seq = s21.seq ∧ s12.pend = s21.pend ∧ s12.rsp.Perm s21.rsp ∧ s12.hist.Perm s21.hist
      ∧ s12.toTransport.Perm s21.toTransport ∧ SameRegisters s12 s21

/-- Two callers, one universe (R36, R38 item 3; the program P4): two sends that pass, one after the other, get consecutive
sequence numbers, the earlier the lower, and both transmissions are then pending. -/
def Obligations.SameUniverseSendsGetConsecutiveNumbers : Prop :=
  ∀ (i j : Instr) (u c d : Nat) (s : State),
    i.sendsOn u → j.sendsOn u → i.passesIn s → j.passesIn s →
    ∃ s1 s2 a b, exec i { s with caller := c } = .next s1 ∧ exec j { s1 with caller := d } = .next s2
      ∧ s2.pend.Perm (b :: a :: s.pend) ∧ a.caller = c ∧ b.caller = d
      ∧ a.seq = s.seqRead u ∧ b.seq = a.seq + 1 ∧ byteAt a.bytes 111 = a.seq ∧ byteAt b.bytes 111 = b.seq
      ∧ s2.seqRead u = s.seqRead u + 2

/-- N successive sends on one universe (R117), whatever mix of the two commands: all complete, and the sequence numbers
they carry are `s0, s0 + 1, ..., s0 + (N - 1)` modulo 256, with `s0` the counter before the first; the counter then holds
`s0 + N` modulo 256. -/
def Obligations.SuccessiveSendsCountUpModulo256 : Prop :=
  ∀ (is : List Instr) (u : Nat) (s : State), (∀ i ∈ is, i.sendsOn u ∧ i.passesIn s) →
    ∃ t, execAll is s = some t
      ∧ issuedSeqs u t.hist =
          issuedSeqs u s.hist ++ (List.range is.length).map (fun k => s.seqRead u + BitVec.ofNat 8 k)
      ∧ t.seqRead u = s.seqRead u + BitVec.ofNat 8 is.length

/-- The completion step (R118): it may take any pending entry and draw any status the destination admits; it removes that
entry, records the completion, answers the entry's caller with that status, and touches neither the counters nor the
registers nor anything else. -/
def Obligations.CompletionTakesAnyEntryAndStatus : Prop :=
  ∀ (s : State) (e : PendEntry) (st : TxStatus) (rest : List Input),
    (s.pend.Pairwise fun a b => a.caller < b.caller) → e ∈ s.pend →
    (st = .ok ∨ st = .sendFail ∨ (st = .resolveFail ∧ ∃ host, e.dest = .ucast host)) →
    ∃ pend, s.pend.Perm (e :: pend)
      ∧ step { s with inbox := .txs e.caller st :: rest } =
          .next { s with
            inbox := rest
            pend  := pend
            hist  := s.hist ++ [.completed e.caller e.dest e.port e.bytes st]
            rsp   := s.rsp ++ [(e.caller, match st with
              | .ok => .ok []
              | .resolveFail => .err (.transmission .resolveFail)
              | .sendFail => .err (.transmission .sendFail))] }

/-- Only these completions happen: one that a step takes is for a caller with a pending entry, and `ResolveFail` only for a
unicast one (R85, R118). -/
def Obligations.NoCompletionWithoutAPendingEntry : Prop :=
  ∀ (s : State) (c : Nat) (st : TxStatus) (rest : List Input), s.nextInput = some (.txs c st, rest) →
    ∃ e, e ∈ s.pend ∧ e.caller = c ∧ (st = .resolveFail → ∃ host, e.dest = .ucast host)

/-- The counters do not depend on the outcome of a transmission (R120 under decision D5, advance-always): a completion with
any status leaves every counter as the issue step left it. -/
def Obligations.CompletionNeverMovesACounter : Prop :=
  ∀ (s : State) (c : Nat) (st : TxStatus) (rest : List Input), s.nextInput = some (.txs c st, rest) →
    ∃ t, step s = .next t ∧ t.seq = s.seq ∧ SameRegisters s t ∧ t.toTransport = s.toTransport

/-- `MCAST_ADDR` (R114) completes in every state with one of its three answers: too large for 16 bits, out of range under
the policy `reject`, or the four address bytes; nothing changes but the record and the response. -/
def Obligations.McastAddrCommandAnswers : Prop :=
  ∀ (s : State) (univ : Nat),
    (65536 ≤ univ →
      exec (.mcastAddr univ) s = .next { s with
        hist := s.hist ++ [.rejected s.caller (some (.mcastAddr univ)) (.encoding .universeNot16Bit)]
        rsp  := s.rsp ++ [(s.caller, .err (.encoding .universeNot16Bit))] })
    ∧ (univ < 65536 → s.params.universePolicy = .reject → univ = 0 ∨ 63999 < univ →
      exec (.mcastAddr univ) s = .next { s with
        hist := s.hist ++ [.rejected s.caller (some (.mcastAddr univ)) (.encoding .universeOutOfRange)]
        rsp  := s.rsp ++ [(s.caller, .err (.encoding .universeOutOfRange))] })
    ∧ (univ < 65536 → (s.params.universePolicy = .reject → 1 ≤ univ ∧ univ ≤ 63999) →
      exec (.mcastAddr univ) s = .next { s with
        hist := s.hist ++ [.built s.caller [s.params.wire.mcastBase0, s.params.wire.mcastBase1,
          BitVec.ofNat 8 (univ / 256), BitVec.ofNat 8 univ]]
        rsp  := s.rsp ++ [(s.caller, .ok [s.params.wire.mcastBase0, s.params.wire.mcastBase1,
          BitVec.ofNat 8 (univ / 256), BitVec.ofNat 8 univ])] })

/-- The derived address (R112): distinct universes of 16 bits have distinct addresses, and with the base 239.255 (G10, log
entry 1) the address is the number `0xEFFF0000 + universe`. -/
def Obligations.McastAddressesAreDistinct : Prop :=
  ∀ (p : Params) (u v : Nat), u < 65536 → v < 65536 →
    (mcastAddr p u = mcastAddr p v → u = v)
    ∧ (p.wire = .e131 → ∃ a0 a1 a2 a3, mcastAddr p u = .mcast a0 a1 a2 a3
        ∧ readBe32 a0 a1 a2 a3 = 0xEFFF0000 + u)

/-! ### Configuration and reset (42_configuration.md, 70_reset_and_hazards.md) -/

/-- `SET_MCAST_IF` (R130) completes in every state with one of its three answers: after `TEARDOWN` it is a bad command; an
unsupported family is an address-family error without any effect; a supported selector is told to the TRANSPORT and held in
`MCAST_IF`. Nothing else changes. -/
def Obligations.SetMcastIfAnswers : Prop :=
  ∀ (s : State) (sel : IfSelector),
    (s.tornDown = true →
      exec (.setMcastIf sel) s = .next { s with
        hist := s.hist ++ [.rejected s.caller (some (.setMcastIf sel)) (.badCommand .tornDown)]
        rsp  := s.rsp ++ [(s.caller, .err (.badCommand .tornDown))] })
    ∧ (s.tornDown = false → familyOf sel ∉ s.params.ifFamilies →
      exec (.setMcastIf sel) s = .next { s with
        hist := s.hist ++ [.configured s.caller sel (some .addressFamily)]
        rsp  := s.rsp ++ [(s.caller, .err .addressFamily)] })
    ∧ (s.tornDown = false → familyOf sel ∈ s.params.ifFamilies →
      exec (.setMcastIf sel) s = .next { s with
        mcastIf     := some sel
        toTransport := s.toTransport ++ [.useInterface sel]
        hist        := s.hist ++ [.configured s.caller sel none]
        rsp         := s.rsp ++ [(s.caller, .ok [])] })

/-- `TEARDOWN` (R131) completes exactly when no transmission is pending: it sets `TORN_DOWN`, tells the TRANSPORT to release
its handle, records `TornDown` and answers `Ok`; with one pending the model refuses it, as R131 says. That the second one
gives the notice and the event again is the model's choice, log entry 10 (DEDUCED: it runs R131's pseudocode): R132 says
that it answers `Ok` with no change. -/
def Obligations.TeardownAnswers : Prop :=
  ∀ s : State,
    (s.pend = [] →
      exec .teardown s = .next { s with
        tornDown    := true
        toTransport := s.toTransport ++ [.releaseHandle]
        hist        := s.hist ++ [.tornDown s.caller]
        rsp         := s.rsp ++ [(s.caller, .ok [])] })
    ∧ (s.pend ≠ [] → exec .teardown s = .refused .teardownWithPending)

/-- After `TEARDOWN` (R132): the sends and `SET_MCAST_IF` answer `BadCommand(TORN_DOWN)` with no state change and no
message; `BUILD` and `MCAST_ADDR` answer as they did before. -/
def Obligations.AfterTeardownOnlyPureCommandsWork : Prop :=
  ∀ s : State, s.tornDown = true →
    (∀ (i : Instr), (∃ u, i.sendsOn u) ∨ (∃ sel, i = .setMcastIf sel) →
      exec i s = .next { s with
        hist := s.hist ++ [.rejected s.caller (some i) (.badCommand .tornDown)]
        rsp  := s.rsp ++ [(s.caller, .err (.badCommand .tornDown))] })
    ∧ (∀ (i : Instr), (∃ univ name cid seq pay prio, i = .build univ name cid seq pay prio) ∨ (∃ univ, i = .mcastAddr univ) →
      ∃ t, exec i s = .next t ∧ exec i { s with tornDown := false } = .next { t with tornDown := false })

/-- The reset event (R170, R173): a step that takes it is `construct` at the state in which that input is gone. With nothing
pending, it sets every register to its operand or its default,
empties the counters, the pending set and the records, and performs `SET_MCAST_IF` for its interface operand, which holds it
when its family is supported and otherwise reports the address-family error and leaves `none`. The inputs still to come
stay (the model's choice, log entry 8). With a transmission pending the model refuses it. -/
def Obligations.ConstructSetsEverything : Prop :=
  ∀ (s : State) (c : Nat) (cid name : Option Bytes) (port : Option (BitVec 16)) (iface : Option IfSelector)
    (rest : List Input),
    s.nextInput = some (.construct c cid name port iface, rest) →
    step s = construct c cid name port iface { s with inbox := rest }
    ∧ (s.pend = [] → ∃ t, step s = .next t
      ∧ t.seq = [] ∧ t.cid = cid ∧ t.name = name ∧ t.port = port.getD 5568 ∧ t.tornDown = false ∧ t.pend = []
      ∧ t.params = s.params ∧ t.inbox = rest ∧ t.caller = c
      ∧ (match iface with
        | none => t.mcastIf = none ∧ t.hist = [] ∧ t.rsp = [] ∧ t.toTransport = [.createHandle]
        | some sel =>
            if familyOf sel ∈ s.params.ifFamilies then
              t.mcastIf = some sel ∧ t.hist = [.configured c sel none] ∧ t.rsp = [(c, .ok [])]
                ∧ t.toTransport = [.createHandle, .useInterface sel]
            else
              t.mcastIf = none ∧ t.hist = [.configured c sel (some .addressFamily)]
                ∧ t.rsp = [(c, .err .addressFamily)] ∧ t.toTransport = [.createHandle]))
    ∧ (s.pend ≠ [] → step s = .refused .constructWithPending)

/-- The state after reset with every operand absent (R20): every counter reads 0, the identity and the interface are absent,
the port is 5568, the block is not torn down, nothing is pending and no event is recorded; and it is what `CONSTRUCT` with
no operand leaves of any idle block with the same parameters and no inputs to come. -/
def Obligations.ResetValues : Prop :=
  (∀ u, State.reset.seqRead u = 0 ∧ State.reset.inDom u = false)
  ∧ State.reset.cid = none ∧ State.reset.name = none ∧ State.reset.port = 5568 ∧ State.reset.mcastIf = none
  ∧ State.reset.tornDown = false ∧ State.reset.pend = [] ∧ State.reset.hist = []
  ∧ ∀ s : State, s.pend = [] → s.params = .default → s.inbox = [] →
      construct 0 none none none none s = .next State.reset

/-! ### Errors and responses (60_exceptions.md, R83) -/

/-- The state after an error (R148): an instruction answered with an encoding, address-family or bad-command error leaves
the block and the TRANSPORT as they were, and so does the answer to a descriptor that the decoder refuses; a completion
answered with a transmission error leaves the counters as the issue
step advanced them, removes the entry, and changes no register. -/
def Obligations.StateAfterAnError : Prop :=
  (∀ (i : Instr) (s t : State) (c : Nat) (e : Error), exec i s = .next t → t.rsp = s.rsp ++ [(c, .err e)] →
    SameBlock s t ∧ t.toTransport = s.toTransport)
  ∧ (∀ (s : State) (c : Nat) (st : TxStatus) (rest : List Input), s.nextInput = some (.txs c st, rest) → st ≠ .ok →
    ∃ t e, step s = .next t ∧ (∃ cause, t.rsp = s.rsp ++ [(c, .err (.transmission cause))])
      ∧ t.seq = s.seq ∧ s.pend.Perm (e :: t.pend) ∧ e.caller = c ∧ SameRegisters s t ∧ t.toTransport = s.toTransport)
  ∧ (∀ (s : State) (c : Nat) (d : Bytes) (rest : List Input) (r : Reserved),
    s.nextInput = some (.cmd c d, rest) → decode d = .error r →
    ∃ t, step s = .next t ∧ t.rsp = s.rsp ++ [(c, .err (.badCommand .reservedEncoding))]
      ∧ SameBlock s t ∧ t.toTransport = s.toTransport)

/-- The codes of R144 and the responses written out in 95_test_vectors.md V9. -/
def Obligations.ResponseCodes : Prop :=
  ([EncodingCause.payloadEmpty, .payloadTooLong, .cidMissing, .cidMalformed, .nameMissing, .universeNot16Bit,
      .universeOutOfRange, .priorityOutOfRange].map fun c => ((Error.encoding c).status, (Error.encoding c).cause))
    = [(1, 1), (1, 2), (1, 3), (1, 4), (1, 5), (1, 6), (1, 7), (1, 8)]
  ∧ ([Error.addressFamily, .transmission .resolveFail, .transmission .sendFail, .badCommand .reservedEncoding,
      .badCommand .tornDown].map fun e => (e.status, e.cause)) = [(2, 1), (3, 1), (3, 2), (4, 1), (4, 2)]
  ∧ (Response.ok []).encode = [0x00, 0x00, 0x00, 0x00]
  ∧ (Response.err (.encoding .payloadEmpty)).encode = [0x01, 0x01, 0x00, 0x00]
  ∧ (Response.err (.transmission .sendFail)).encode = [0x03, 0x02, 0x00, 0x00]
  ∧ (Response.ok [0xEF, 0xFF, 0x02, 0x01]).encode = [0x00, 0x00, 0x00, 0x04, 0xEF, 0xFF, 0x02, 0x01]

/-- The TX message (R84): the destination's kind and length, the port, the datagram's length, the destination and the
datagram, each of which reads back from the message's bytes when the destination fits its length byte. -/
def Obligations.TransmitMessageReadsBack : Prop :=
  ∀ (dest : Dest) (port : BitVec 16) (bytes : Bytes), dest.bytes.length < 256 → bytes.length ≤ 638 →
    ∃ m, (TransportMsg.tx dest port bytes).encode = some m
      ∧ m.length = 6 + dest.bytes.length + bytes.length
      ∧ (byteAt m 0 = 0 ↔ ∃ a0 a1 a2 a3, dest = .mcast a0 a1 a2 a3) ∧ (byteAt m 0 = 1 ↔ ∃ host, dest = .ucast host)
      ∧ (byteAt m 1).toNat = dest.bytes.length ∧ readBe16 (byteAt m 2) (byteAt m 3) = port.toNat
      ∧ readBe16 (byteAt m 4) (byteAt m 5) = bytes.length
      ∧ slice m 6 (6 + dest.bytes.length) = dest.bytes ∧ slice m (6 + dest.bytes.length) m.length = bytes

/-! ### Rules of the whole machine -/

/-- The frame of every instruction that answers a next state: `CID`, `NAME`, `PORT`, the parameters, the inputs to come and
the port in service never change; `MCAST_IF` changes only by `SET_MCAST_IF`, `TORN_DOWN` only by `TEARDOWN`; a counter, the
pending set and the TRANSPORT's datagrams only by a send, and then only the counter of its own universe; the records only
grow. -/
def Obligations.FrameOfEveryInstruction : Prop :=
  ∀ (i : Instr) (s t : State), exec i s = .next t →
    t.cid = s.cid ∧ t.name = s.name ∧ t.port = s.port ∧ t.params = s.params ∧ t.inbox = s.inbox ∧ t.caller = s.caller
    ∧ ((∀ sel, i ≠ .setMcastIf sel) → t.mcastIf = s.mcastIf)
    ∧ (i ≠ .teardown → t.tornDown = s.tornDown)
    ∧ ((∀ u, ¬ i.sendsOn u) → t.seq = s.seq ∧ t.pend = s.pend
        ∧ t.toTransport.filterMap TransportMsg.datagram = s.toTransport.filterMap TransportMsg.datagram)
    ∧ (∀ u, i.sendsOn u → ∀ v, v ≠ u → t.seqRead v = s.seqRead v ∧ t.inDom v = s.inDom v)
    ∧ s.hist <+: t.hist ∧ s.rsp <+: t.rsp ∧ s.toTransport <+: t.toTransport

/-- The registers over a step (R16, R39): but for the reset event, no step changes `CID`, `NAME`, `PORT` or a parameter, no
step clears `TORN_DOWN`, and `MCAST_IF` changes only when the step serves a `SET_MCAST_IF`. -/
def Obligations.RegistersOverAStep : Prop :=
  ∀ s t : State, step s = .next t →
    (∃ c cid name port iface rest, s.nextInput = some (.construct c cid name port iface, rest))
    ∨ (t.cid = s.cid ∧ t.name = s.name ∧ t.port = s.port ∧ t.params = s.params
      ∧ (s.tornDown = true → t.tornDown = true)
      ∧ (t.mcastIf = s.mcastIf ∨ ∃ c x rest sel, s.nextInput = some (x, rest) ∧ x.Presents c (.setMcastIf sel)
          ∧ t.mcastIf = some sel))

/-- The counters over a step (R13, R21 (a)): but for the reset event, a step leaves every counter alone, or serves a send
that passes and advances the counter of its universe by one modulo 256, and no other. -/
def Obligations.CountersOnlyMoveForward : Prop :=
  ∀ s t : State, step s = .next t →
    (∃ c cid name port iface rest, s.nextInput = some (.construct c cid name port iface, rest))
    ∨ t.seq = s.seq
    ∨ ∃ c x rest i u, s.nextInput = some (x, rest) ∧ x.Presents c i ∧ i.sendsOn u ∧ i.passesIn s
        ∧ t.seqRead u = s.seqRead u + 1 ∧ ∀ v, v ≠ u → t.seqRead v = s.seqRead v

/-- `BUILD` and `MCAST_ADDR` see no register, no counter and nothing pending (R13, R35, R95, R114): from two states with the
same parameters and port in service they give the same answer. -/
def Obligations.PureCommandsReadNoState : Prop :=
  ∀ (s s' : State) (i : Instr), s.params = s'.params → s.caller = s'.caller →
    (∃ univ name cid seq pay prio, i = .build univ name cid seq pay prio) ∨ (∃ univ, i = .mcastAddr univ) →
    ∃ t t' event response, exec i s = .next t ∧ exec i s' = .next t'
      ∧ t = { s with hist := s.hist ++ [event], rsp := s.rsp ++ [(s.caller, response)] }
      ∧ t' = { s' with hist := s'.hist ++ [event], rsp := s'.rsp ++ [(s.caller, response)] }

/-- Nothing reads `MCAST_IF` (R16, R130): from two states that differ in it alone, the same input is taken next, and every
instruction and every step (a command, a completion, the reset event) stops or goes on alike, and goes on to states that
differ in it at most. -/
def Obligations.NothingDependsOnTheInterface : Prop :=
  ∀ (s : State) (sel : Option IfSelector),
    ({ s with mcastIf := sel } : State).nextInput = s.nextInput
    ∧ (∀ i : Instr, AlikeButForInterface (exec i s) (exec i { s with mcastIf := sel }))
    ∧ AlikeButForInterface (step s) (step { s with mcastIf := sel })

/-- A write to the output buffer inside it is read back, keeps the length, and leaves every byte outside it alone (R31,
R32). -/
def Obligations.BufferWriteThenRead : Prop :=
  ∀ (addr : Nat) (b out : Bytes), addr + b.length ≤ out.length →
    memRead (memWriteBytes addr b out) addr b.length = b
    ∧ (memWriteBytes addr b out).length = out.length
    ∧ ∀ i, i < addr ∨ addr + b.length ≤ i → byteAt (memWriteBytes addr b out) i = byteAt out i

/-- The counter file (R11, R12): a counter written reads back and its universe is in the domain, every other universe reads
as before, and a write to a 16-bit universe keeps the canonical form. -/
def Obligations.CounterWriteThenRead : Prop :=
  ∀ (s : State) (u : Nat) (b : Byte),
    (s.seqWrite u b).seqRead u = b ∧ (s.seqWrite u b).inDom u = true
    ∧ (∀ v, v ≠ u → (s.seqWrite u b).seqRead v = s.seqRead v ∧ (s.seqWrite u b).inDom v = s.inDom v)
    ∧ (u < 65536 → Memory.wf s.seq = true → Memory.wf (s.seqWrite u b).seq = true)

/-! ### Invariants -/

/-- The invariants hold after reset. -/
def Obligations.ResetMeetsTheInvariants : Prop :=
  State.reset.Inv ∧ State.reset.Numbered ∧ State.reset.Recorded

/-- Every step keeps the invariant of the state: canonical counters, at most one pending transmission for a caller, sound
pending entries, none pending once torn down, no counter for a universe the policy rejects, and an interface of a supported
family or none. -/
def Obligations.StepKeepsInv : Prop :=
  ∀ s t : State, s.Inv → step s = .next t → t.Inv

/-- Every step keeps the sequence numbering (R21 (b), R23, R38 item 1): the `k`-th issue step on a universe since reset
carries `k` modulo 256, counting from 0, the counter holds their number modulo 256, and `dom(SEQ)` is the set of universes
with at least one. -/
def Obligations.StepKeepsNumbering : Prop :=
  ∀ s t : State, s.Numbered → step s = .next t → t.Numbered

/-- Every step keeps the channels and the pending set in agreement with the history (R38 items 2, 4 and 5, R83, R84): every
command has exactly one response, each issue step hands over one datagram, and each caller's datagrams are completed once
each, in the order of its commands, none lost and none duplicated. -/
def Obligations.StepKeepsTheRecords : Prop :=
  ∀ s t : State, s.Recorded → step s = .next t → t.Recorded

/-- Two packets of a universe carry the same sequence number only if a multiple of 256 issue steps separate them (R21 (c)),
so any 256 successive ones are distinct (R174). -/
def Obligations.EqualNumbersAre256Apart : Prop :=
  ∀ (s : State) (u : Nat), s.Numbered →
    (∀ j k a, (issuedSeqs u s.hist)[j]? = some a → (issuedSeqs u s.hist)[k]? = some a → j % 256 = k % 256)
    ∧ (∀ from_ n, n ≤ 256 → (((issuedSeqs u s.hist).drop from_).take n).Nodup)

/-- When every caller has had the response to each of its sends, nothing is pending, and the other way round (R180): a run
that is over has an empty `PEND`. -/
def Obligations.NothingPendingWhenAllAnswered : Prop :=
  ∀ s : State, s.Recorded → ((∀ c, issuedBy c s.hist = completedFor c s.hist) ↔ s.pend = [])

/-! ### Presenting commands (70_reset_and_hazards.md R181) -/

/-- The HOST may present any command with any operands (R181, R76): on a port that exists and has nothing pending, a step
takes it and runs its meaning, whether or not a descriptor spells it; and one that has a descriptor does by it what it does
as the value itself, since a descriptor "carries no meaning beyond the `Command` it spells" (R76). -/
def Obligations.AnyCommandCanBePresented : Prop :=
  ∀ (s : State) (c : Nat) (i : Instr) (rest : List Input),
    i.isCommand = true → c < s.params.nports → (∀ e ∈ s.pend, e.caller ≠ c) →
    step { s with inbox := .command c i :: rest } = exec i { s with inbox := rest, caller := c }
    ∧ (i.wellFormed = true →
        step { s with inbox := .cmd c (encode i) :: rest } = step { s with inbox := .command c i :: rest })
end

