-- ==== Sys2Proof/Laws/State.lean ====
section
/-! SUPPORT. The update lemmas of State: for each update and each field, what the field is after it. -/

namespace Sys2Proof.Machine

section
variable (s : State)

/-! `seqWrite` -/

@[simp] theorem State.seqWrite_seq (u : Nat) (v : Byte) : (s.seqWrite u v).seq = Memory.insert u v s.seq := rfl
@[simp] theorem State.seqWrite_cid (u : Nat) (v : Byte) : (s.seqWrite u v).cid = s.cid := rfl
@[simp] theorem State.seqWrite_name (u : Nat) (v : Byte) : (s.seqWrite u v).name = s.name := rfl
@[simp] theorem State.seqWrite_port (u : Nat) (v : Byte) : (s.seqWrite u v).port = s.port := rfl
@[simp] theorem State.seqWrite_mcastIf (u : Nat) (v : Byte) : (s.seqWrite u v).mcastIf = s.mcastIf := rfl
@[simp] theorem State.seqWrite_tornDown (u : Nat) (v : Byte) : (s.seqWrite u v).tornDown = s.tornDown := rfl
@[simp] theorem State.seqWrite_pend (u : Nat) (v : Byte) : (s.seqWrite u v).pend = s.pend := rfl
@[simp] theorem State.seqWrite_hist (u : Nat) (v : Byte) : (s.seqWrite u v).hist = s.hist := rfl
@[simp] theorem State.seqWrite_caller (u : Nat) (v : Byte) : (s.seqWrite u v).caller = s.caller := rfl
@[simp] theorem State.seqWrite_inbox (u : Nat) (v : Byte) : (s.seqWrite u v).inbox = s.inbox := rfl
@[simp] theorem State.seqWrite_rsp (u : Nat) (v : Byte) : (s.seqWrite u v).rsp = s.rsp := rfl
@[simp] theorem State.seqWrite_toTransport (u : Nat) (v : Byte) : (s.seqWrite u v).toTransport = s.toTransport := rfl
@[simp] theorem State.seqWrite_params (u : Nat) (v : Byte) : (s.seqWrite u v).params = s.params := rfl

/-! `pendAdd` -/

@[simp] theorem State.pendAdd_seq (e : PendEntry) : (s.pendAdd e).seq = s.seq := rfl
@[simp] theorem State.pendAdd_cid (e : PendEntry) : (s.pendAdd e).cid = s.cid := rfl
@[simp] theorem State.pendAdd_name (e : PendEntry) : (s.pendAdd e).name = s.name := rfl
@[simp] theorem State.pendAdd_port (e : PendEntry) : (s.pendAdd e).port = s.port := rfl
@[simp] theorem State.pendAdd_mcastIf (e : PendEntry) : (s.pendAdd e).mcastIf = s.mcastIf := rfl
@[simp] theorem State.pendAdd_tornDown (e : PendEntry) : (s.pendAdd e).tornDown = s.tornDown := rfl
@[simp] theorem State.pendAdd_pend (e : PendEntry) : (s.pendAdd e).pend = pendInsert e s.pend := rfl
@[simp] theorem State.pendAdd_hist (e : PendEntry) : (s.pendAdd e).hist = s.hist := rfl
@[simp] theorem State.pendAdd_caller (e : PendEntry) : (s.pendAdd e).caller = s.caller := rfl
@[simp] theorem State.pendAdd_inbox (e : PendEntry) : (s.pendAdd e).inbox = s.inbox := rfl
@[simp] theorem State.pendAdd_rsp (e : PendEntry) : (s.pendAdd e).rsp = s.rsp := rfl
@[simp] theorem State.pendAdd_toTransport (e : PendEntry) : (s.pendAdd e).toTransport = s.toTransport := rfl
@[simp] theorem State.pendAdd_params (e : PendEntry) : (s.pendAdd e).params = s.params := rfl

/-! `pendDrop` -/

@[simp] theorem State.pendDrop_seq (c : Nat) : (s.pendDrop c).seq = s.seq := rfl
@[simp] theorem State.pendDrop_cid (c : Nat) : (s.pendDrop c).cid = s.cid := rfl
@[simp] theorem State.pendDrop_name (c : Nat) : (s.pendDrop c).name = s.name := rfl
@[simp] theorem State.pendDrop_port (c : Nat) : (s.pendDrop c).port = s.port := rfl
@[simp] theorem State.pendDrop_mcastIf (c : Nat) : (s.pendDrop c).mcastIf = s.mcastIf := rfl
@[simp] theorem State.pendDrop_tornDown (c : Nat) : (s.pendDrop c).tornDown = s.tornDown := rfl
@[simp] theorem State.pendDrop_pend (c : Nat) : (s.pendDrop c).pend = pendErase c s.pend := rfl
@[simp] theorem State.pendDrop_hist (c : Nat) : (s.pendDrop c).hist = s.hist := rfl
@[simp] theorem State.pendDrop_caller (c : Nat) : (s.pendDrop c).caller = s.caller := rfl
@[simp] theorem State.pendDrop_inbox (c : Nat) : (s.pendDrop c).inbox = s.inbox := rfl
@[simp] theorem State.pendDrop_rsp (c : Nat) : (s.pendDrop c).rsp = s.rsp := rfl
@[simp] theorem State.pendDrop_toTransport (c : Nat) : (s.pendDrop c).toTransport = s.toTransport := rfl
@[simp] theorem State.pendDrop_params (c : Nat) : (s.pendDrop c).params = s.params := rfl

/-! `record` -/

@[simp] theorem State.record_seq (e : Event) : (s.record e).seq = s.seq := rfl
@[simp] theorem State.record_cid (e : Event) : (s.record e).cid = s.cid := rfl
@[simp] theorem State.record_name (e : Event) : (s.record e).name = s.name := rfl
@[simp] theorem State.record_port (e : Event) : (s.record e).port = s.port := rfl
@[simp] theorem State.record_mcastIf (e : Event) : (s.record e).mcastIf = s.mcastIf := rfl
@[simp] theorem State.record_tornDown (e : Event) : (s.record e).tornDown = s.tornDown := rfl
@[simp] theorem State.record_pend (e : Event) : (s.record e).pend = s.pend := rfl
@[simp] theorem State.record_hist (e : Event) : (s.record e).hist = s.hist ++ [e] := rfl
@[simp] theorem State.record_caller (e : Event) : (s.record e).caller = s.caller := rfl
@[simp] theorem State.record_inbox (e : Event) : (s.record e).inbox = s.inbox := rfl
@[simp] theorem State.record_rsp (e : Event) : (s.record e).rsp = s.rsp := rfl
@[simp] theorem State.record_toTransport (e : Event) : (s.record e).toTransport = s.toTransport := rfl
@[simp] theorem State.record_params (e : Event) : (s.record e).params = s.params := rfl

/-! `respondTo` -/

@[simp] theorem State.respondTo_seq (c : Nat) (r : Response) : (s.respondTo c r).seq = s.seq := rfl
@[simp] theorem State.respondTo_cid (c : Nat) (r : Response) : (s.respondTo c r).cid = s.cid := rfl
@[simp] theorem State.respondTo_name (c : Nat) (r : Response) : (s.respondTo c r).name = s.name := rfl
@[simp] theorem State.respondTo_port (c : Nat) (r : Response) : (s.respondTo c r).port = s.port := rfl
@[simp] theorem State.respondTo_mcastIf (c : Nat) (r : Response) : (s.respondTo c r).mcastIf = s.mcastIf := rfl
@[simp] theorem State.respondTo_tornDown (c : Nat) (r : Response) : (s.respondTo c r).tornDown = s.tornDown := rfl
@[simp] theorem State.respondTo_pend (c : Nat) (r : Response) : (s.respondTo c r).pend = s.pend := rfl
@[simp] theorem State.respondTo_hist (c : Nat) (r : Response) : (s.respondTo c r).hist = s.hist := rfl
@[simp] theorem State.respondTo_caller (c : Nat) (r : Response) : (s.respondTo c r).caller = s.caller := rfl
@[simp] theorem State.respondTo_inbox (c : Nat) (r : Response) : (s.respondTo c r).inbox = s.inbox := rfl
@[simp] theorem State.respondTo_rsp (c : Nat) (r : Response) : (s.respondTo c r).rsp = s.rsp ++ [(c, r)] := rfl
@[simp] theorem State.respondTo_toTransport (c : Nat) (r : Response) : (s.respondTo c r).toTransport = s.toTransport := rfl
@[simp] theorem State.respondTo_params (c : Nat) (r : Response) : (s.respondTo c r).params = s.params := rfl

/-! `respond` -/

@[simp] theorem State.respond_seq (r : Response) : (s.respond r).seq = s.seq := rfl
@[simp] theorem State.respond_cid (r : Response) : (s.respond r).cid = s.cid := rfl
@[simp] theorem State.respond_name (r : Response) : (s.respond r).name = s.name := rfl
@[simp] theorem State.respond_port (r : Response) : (s.respond r).port = s.port := rfl
@[simp] theorem State.respond_mcastIf (r : Response) : (s.respond r).mcastIf = s.mcastIf := rfl
@[simp] theorem State.respond_tornDown (r : Response) : (s.respond r).tornDown = s.tornDown := rfl
@[simp] theorem State.respond_pend (r : Response) : (s.respond r).pend = s.pend := rfl
@[simp] theorem State.respond_hist (r : Response) : (s.respond r).hist = s.hist := rfl
@[simp] theorem State.respond_caller (r : Response) : (s.respond r).caller = s.caller := rfl
@[simp] theorem State.respond_inbox (r : Response) : (s.respond r).inbox = s.inbox := rfl
@[simp] theorem State.respond_rsp (r : Response) : (s.respond r).rsp = s.rsp ++ [(s.caller, r)] := rfl
@[simp] theorem State.respond_toTransport (r : Response) : (s.respond r).toTransport = s.toTransport := rfl
@[simp] theorem State.respond_params (r : Response) : (s.respond r).params = s.params := rfl

/-! `tell` -/

@[simp] theorem State.tell_seq (m : TransportMsg) : (s.tell m).seq = s.seq := rfl
@[simp] theorem State.tell_cid (m : TransportMsg) : (s.tell m).cid = s.cid := rfl
@[simp] theorem State.tell_name (m : TransportMsg) : (s.tell m).name = s.name := rfl
@[simp] theorem State.tell_port (m : TransportMsg) : (s.tell m).port = s.port := rfl
@[simp] theorem State.tell_mcastIf (m : TransportMsg) : (s.tell m).mcastIf = s.mcastIf := rfl
@[simp] theorem State.tell_tornDown (m : TransportMsg) : (s.tell m).tornDown = s.tornDown := rfl
@[simp] theorem State.tell_pend (m : TransportMsg) : (s.tell m).pend = s.pend := rfl
@[simp] theorem State.tell_hist (m : TransportMsg) : (s.tell m).hist = s.hist := rfl
@[simp] theorem State.tell_caller (m : TransportMsg) : (s.tell m).caller = s.caller := rfl
@[simp] theorem State.tell_inbox (m : TransportMsg) : (s.tell m).inbox = s.inbox := rfl
@[simp] theorem State.tell_rsp (m : TransportMsg) : (s.tell m).rsp = s.rsp := rfl
@[simp] theorem State.tell_toTransport (m : TransportMsg) : (s.tell m).toTransport = s.toTransport ++ [m] := rfl
@[simp] theorem State.tell_params (m : TransportMsg) : (s.tell m).params = s.params := rfl

/-! `serving` -/

@[simp] theorem State.serving_seq (c : Nat) : (s.serving c).seq = s.seq := rfl
@[simp] theorem State.serving_cid (c : Nat) : (s.serving c).cid = s.cid := rfl
@[simp] theorem State.serving_name (c : Nat) : (s.serving c).name = s.name := rfl
@[simp] theorem State.serving_port (c : Nat) : (s.serving c).port = s.port := rfl
@[simp] theorem State.serving_mcastIf (c : Nat) : (s.serving c).mcastIf = s.mcastIf := rfl
@[simp] theorem State.serving_tornDown (c : Nat) : (s.serving c).tornDown = s.tornDown := rfl
@[simp] theorem State.serving_pend (c : Nat) : (s.serving c).pend = s.pend := rfl
@[simp] theorem State.serving_hist (c : Nat) : (s.serving c).hist = s.hist := rfl
@[simp] theorem State.serving_caller (c : Nat) : (s.serving c).caller = c := rfl
@[simp] theorem State.serving_inbox (c : Nat) : (s.serving c).inbox = s.inbox := rfl
@[simp] theorem State.serving_rsp (c : Nat) : (s.serving c).rsp = s.rsp := rfl
@[simp] theorem State.serving_toTransport (c : Nat) : (s.serving c).toTransport = s.toTransport := rfl
@[simp] theorem State.serving_params (c : Nat) : (s.serving c).params = s.params := rfl

/-! `withInbox` -/

@[simp] theorem State.withInbox_seq (rest : List Input) : (s.withInbox rest).seq = s.seq := rfl
@[simp] theorem State.withInbox_cid (rest : List Input) : (s.withInbox rest).cid = s.cid := rfl
@[simp] theorem State.withInbox_name (rest : List Input) : (s.withInbox rest).name = s.name := rfl
@[simp] theorem State.withInbox_port (rest : List Input) : (s.withInbox rest).port = s.port := rfl
@[simp] theorem State.withInbox_mcastIf (rest : List Input) : (s.withInbox rest).mcastIf = s.mcastIf := rfl
@[simp] theorem State.withInbox_tornDown (rest : List Input) : (s.withInbox rest).tornDown = s.tornDown := rfl
@[simp] theorem State.withInbox_pend (rest : List Input) : (s.withInbox rest).pend = s.pend := rfl
@[simp] theorem State.withInbox_hist (rest : List Input) : (s.withInbox rest).hist = s.hist := rfl
@[simp] theorem State.withInbox_caller (rest : List Input) : (s.withInbox rest).caller = s.caller := rfl
@[simp] theorem State.withInbox_inbox (rest : List Input) : (s.withInbox rest).inbox = rest := rfl
@[simp] theorem State.withInbox_rsp (rest : List Input) : (s.withInbox rest).rsp = s.rsp := rfl
@[simp] theorem State.withInbox_toTransport (rest : List Input) : (s.withInbox rest).toTransport = s.toTransport := rfl
@[simp] theorem State.withInbox_params (rest : List Input) : (s.withInbox rest).params = s.params := rfl

/-! `setIf` -/

@[simp] theorem State.setIf_seq (sel : Option IfSelector) : (s.setIf sel).seq = s.seq := rfl
@[simp] theorem State.setIf_cid (sel : Option IfSelector) : (s.setIf sel).cid = s.cid := rfl
@[simp] theorem State.setIf_name (sel : Option IfSelector) : (s.setIf sel).name = s.name := rfl
@[simp] theorem State.setIf_port (sel : Option IfSelector) : (s.setIf sel).port = s.port := rfl
@[simp] theorem State.setIf_mcastIf (sel : Option IfSelector) : (s.setIf sel).mcastIf = sel := rfl
@[simp] theorem State.setIf_tornDown (sel : Option IfSelector) : (s.setIf sel).tornDown = s.tornDown := rfl
@[simp] theorem State.setIf_pend (sel : Option IfSelector) : (s.setIf sel).pend = s.pend := rfl
@[simp] theorem State.setIf_hist (sel : Option IfSelector) : (s.setIf sel).hist = s.hist := rfl
@[simp] theorem State.setIf_caller (sel : Option IfSelector) : (s.setIf sel).caller = s.caller := rfl
@[simp] theorem State.setIf_inbox (sel : Option IfSelector) : (s.setIf sel).inbox = s.inbox := rfl
@[simp] theorem State.setIf_rsp (sel : Option IfSelector) : (s.setIf sel).rsp = s.rsp := rfl
@[simp] theorem State.setIf_toTransport (sel : Option IfSelector) : (s.setIf sel).toTransport = s.toTransport := rfl
@[simp] theorem State.setIf_params (sel : Option IfSelector) : (s.setIf sel).params = s.params := rfl

/-! `tearDown` -/

@[simp] theorem State.tearDown_seq : (s.tearDown).seq = s.seq := rfl
@[simp] theorem State.tearDown_cid : (s.tearDown).cid = s.cid := rfl
@[simp] theorem State.tearDown_name : (s.tearDown).name = s.name := rfl
@[simp] theorem State.tearDown_port : (s.tearDown).port = s.port := rfl
@[simp] theorem State.tearDown_mcastIf : (s.tearDown).mcastIf = s.mcastIf := rfl
@[simp] theorem State.tearDown_tornDown : (s.tearDown).tornDown = true := rfl
@[simp] theorem State.tearDown_pend : (s.tearDown).pend = s.pend := rfl
@[simp] theorem State.tearDown_hist : (s.tearDown).hist = s.hist := rfl
@[simp] theorem State.tearDown_caller : (s.tearDown).caller = s.caller := rfl
@[simp] theorem State.tearDown_inbox : (s.tearDown).inbox = s.inbox := rfl
@[simp] theorem State.tearDown_rsp : (s.tearDown).rsp = s.rsp := rfl
@[simp] theorem State.tearDown_toTransport : (s.tearDown).toTransport = s.toTransport := rfl
@[simp] theorem State.tearDown_params : (s.tearDown).params = s.params := rfl

end

end Sys2Proof.Machine
end

