-- ==== Sys2Proof/Laws/Memory.lean ====
section
/-! SUPPORT. The laws of the counter file: read after write, and the canonical form. -/

namespace Sys2Proof.Machine

@[simp] theorem lookup_insert_self (u : Nat) (v : Byte) (m : List Host.Cell) :
    Memory.lookup (Memory.insert u v m) u = some v := by
  induction m with
  | nil => simp [Memory.insert, Memory.lookup]
  | cons x rest ih =>
    obtain ⟨k, w⟩ := x
    simp only [Memory.insert]
    split
    · simp [Memory.lookup]
    · split
      · simp [Memory.lookup]
      · rename_i h; simp [Memory.lookup, h, ih]

theorem lookup_insert_other {u v : Nat} (h : v ≠ u) (b : Byte) (m : List Host.Cell) :
    Memory.lookup (Memory.insert u b m) v = Memory.lookup m v := by
  induction m with
  | nil => simp [Memory.insert, Memory.lookup, Ne.symm h]
  | cons x rest ih =>
    obtain ⟨k, w⟩ := x
    simp only [Memory.insert]
    split
    · simp [Memory.lookup, Ne.symm h]
    · split
      · rename_i hk; subst hk; simp [Memory.lookup, Ne.symm h]
      · simp only [Memory.lookup, ih]

/-- A list whose universes rise from `k + 1` rises from `k`. -/
theorem rising_weaken {j k : Nat} (h : j ≤ k) {m : List Host.Cell} (hm : Memory.rising k m = true) :
    Memory.rising j m = true := by
  cases m with
  | nil => rfl
  | cons x rest =>
    simp only [Memory.rising, Bool.and_eq_true, decide_eq_true_eq] at hm ⊢
    exact ⟨by omega, hm.2⟩

theorem rising_insert (u : Nat) (v : Byte) (m : List Host.Cell) :
    ∀ k, k ≤ u → Memory.rising k m = true → Memory.rising k (Memory.insert u v m) = true := by
  induction m with
  | nil => intro k hk _; simp [Memory.insert, Memory.rising, hk]
  | cons x rest ih =>
    obtain ⟨j, w⟩ := x
    intro k hk hm
    simp only [Memory.rising, Bool.and_eq_true, decide_eq_true_eq] at hm
    simp only [Memory.insert]
    split
    · simp only [Memory.rising, Bool.and_eq_true, decide_eq_true_eq]; exact ⟨hk, by omega, hm.2⟩
    · split
      · rename_i h; subst h
        simp only [Memory.rising, Bool.and_eq_true, decide_eq_true_eq]; exact ⟨hk, hm.2⟩
      · simp only [Memory.rising, Bool.and_eq_true, decide_eq_true_eq]
        exact ⟨hm.1, ih (j + 1) (by omega) hm.2⟩

theorem all_insert (P : Host.Cell → Bool) {u : Nat} {v : Byte} (hu : P (u, v) = true) {m : List Host.Cell}
    (hm : m.all P = true) : (Memory.insert u v m).all P = true := by
  induction m with
  | nil => simp [Memory.insert, hu]
  | cons x rest ih =>
    obtain ⟨j, w⟩ := x
    simp only [List.all_cons, Bool.and_eq_true] at hm
    simp only [Memory.insert]
    split
    · simp only [List.all_cons, Bool.and_eq_true]; exact ⟨hu, hm⟩
    · split
      · simp only [List.all_cons, Bool.and_eq_true]; exact ⟨hu, hm.2⟩
      · simp only [List.all_cons, Bool.and_eq_true]; exact ⟨hm.1, ih hm.2⟩

/-- The one operation that writes the counter file keeps its canonical form. -/
theorem wf_insert {u : Nat} (hu : u < 65536) (v : Byte) {m : List Host.Cell} (hm : Memory.wf m = true) :
    Memory.wf (Memory.insert u v m) = true := by
  simp only [Memory.wf, Bool.and_eq_true] at hm ⊢
  exact ⟨rising_insert u v m 0 (Nat.zero_le _) hm.1, all_insert _ (by simp [hu]) hm.2⟩

/-- Below its first universe a rising map has no entry. -/
theorem lookup_below {k u : Nat} (hu : u < k) {m : List Host.Cell} (hm : Memory.rising k m = true) :
    Memory.lookup m u = none := by
  induction m generalizing k with
  | nil => rfl
  | cons x m ih =>
    simp only [Memory.rising, Bool.and_eq_true, decide_eq_true_eq] at hm
    simp only [Memory.lookup]
    rw [if_neg (by omega)]
    exact ih (by omega) hm.2

/-- Two maps in canonical order that read alike are the same list. -/
theorem eq_of_lookup {k : Nat} {m m' : List Host.Cell} (hm : Memory.rising k m = true) (hm' : Memory.rising k m' = true)
    (h : ∀ u, Memory.lookup m u = Memory.lookup m' u) : m = m' := by
  induction m generalizing k m' with
  | nil =>
    cases m' with
    | nil => rfl
    | cons y m' => have := h y.1; simp [Memory.lookup] at this
  | cons x m ih =>
    cases m' with
    | nil => have := h x.1; simp [Memory.lookup] at this
    | cons y m' =>
      simp only [Memory.rising, Bool.and_eq_true, decide_eq_true_eq] at hm hm'
      have hx := h x.1
      have hy := h y.1
      simp only [Memory.lookup, if_true] at hx hy
      have hxy : x.1 = y.1 := by
        rcases Nat.lt_trichotomy x.1 y.1 with hlt | heq | hlt
        · rw [if_neg (by omega), lookup_below (by omega) hm'.2] at hx; cases hx
        · exact heq
        · rw [if_neg (by omega), lookup_below (by omega) hm.2] at hy; cases hy
      rw [if_pos hxy.symm] at hx
      have hw : x = y := Prod.ext hxy (Option.some.inj hx)
      subst hw
      congr 1
      refine ih hm.2 hm'.2 fun u => ?_
      have hu := h u
      simp only [Memory.lookup] at hu
      split at hu
      · rename_i hxu; rw [lookup_below (by omega) hm.2, lookup_below (by omega) hm'.2]
      · exact hu

theorem reset_seq_wf : Memory.wf State.reset.seq = true := by decide

/-! The reads of the counter file after a write to it. -/

section
variable (s : State) (u v : Nat) (b : Byte)

@[simp] theorem seqRead_seqWrite_self : (s.seqWrite u b).seqRead u = b := by simp [State.seqRead]

theorem seqRead_seqWrite_other (h : v ≠ u) : (s.seqWrite u b).seqRead v = s.seqRead v := by
  simp [State.seqRead, lookup_insert_other h]

@[simp] theorem inDom_seqWrite_self : (s.seqWrite u b).inDom u = true := by simp [State.inDom]

theorem inDom_seqWrite_other (h : v ≠ u) : (s.seqWrite u b).inDom v = s.inDom v := by
  simp [State.inDom, lookup_insert_other h]

end

/-- The reads depend on the counter file alone. -/
theorem seqRead_congr {s t : State} (h : t.seq = s.seq) (u : Nat) : t.seqRead u = s.seqRead u := by
  simp [State.seqRead, h]

theorem inDom_congr {s t : State} (h : t.seq = s.seq) (u : Nat) : t.inDom u = s.inDom u := by
  simp [State.inDom, h]

end Sys2Proof.Machine
end

