-- ==== Sys2Proof/Laws/Pending.lean ====
section
/-! SUPPORT. The laws of the pending set. -/

namespace Sys2Proof.Machine

theorem pendInsert_perm (e : PendEntry) (l : List PendEntry) : (pendInsert e l).Perm (e :: l) := by
  induction l with
  | nil => exact .refl _
  | cons x rest ih =>
    simp only [pendInsert]
    split
    · exact .refl _
    · exact (ih.cons x).trans (.swap e x rest)

theorem mem_pendInsert {e x : PendEntry} {l : List PendEntry} : x ∈ pendInsert e l ↔ x = e ∨ x ∈ l := by
  rw [(pendInsert_perm e l).mem_iff, List.mem_cons]

/-- The entry found is one of the set, and is the caller's. -/
theorem pendFind_some {c : Nat} {l : List PendEntry} {e : PendEntry} (h : pendFind c l = some e) :
    e ∈ l ∧ e.caller = c := by
  induction l with
  | nil => simp [pendFind] at h
  | cons x rest ih =>
    simp only [pendFind] at h
    split at h
    · rename_i hx; cases h; exact ⟨.head _, hx⟩
    · exact ⟨.tail _ (ih h).1, (ih h).2⟩

theorem pendFind_none {c : Nat} {l : List PendEntry} (h : pendFind c l = none) : ∀ e ∈ l, e.caller ≠ c := by
  induction l with
  | nil => simp
  | cons x rest ih =>
    simp only [pendFind] at h
    split at h
    · cases h
    · rename_i hx; simpa [hx] using ih h

/-- In a set in canonical order, the caller's entry is the one found. -/
theorem pendFind_of_mem {l : List PendEntry} (hl : l.Pairwise fun a b => a.caller < b.caller) {e : PendEntry}
    (he : e ∈ l) : pendFind e.caller l = some e := by
  induction l with
  | nil => cases he
  | cons x rest ih =>
    rw [List.pairwise_cons] at hl
    simp only [pendFind]
    rcases List.mem_cons.mp he with rfl | h
    · simp
    · have := hl.1 e h
      rw [if_neg (by omega)]; exact ih hl.2 h

theorem pendErase_sublist (c : Nat) (l : List PendEntry) : (pendErase c l).Sublist l := by
  induction l with
  | nil => exact .slnil
  | cons x rest ih =>
    simp only [pendErase]
    split
    · exact .cons _ (.refl _)
    · exact .cons_cons _ ih

/-- Erasing a caller's entry takes exactly that one out of the set. -/
theorem pendErase_perm {c : Nat} {l : List PendEntry} {e : PendEntry} (h : pendFind c l = some e) :
    l.Perm (e :: pendErase c l) := by
  induction l with
  | nil => simp [pendFind] at h
  | cons x rest ih =>
    simp only [pendFind, pendErase] at h ⊢
    split
    · rename_i hx; simp only [hx, if_true, Option.some.injEq] at h; subst h; exact .refl _
    · rename_i hx; rw [if_neg hx] at h; exact ((ih h).cons x).trans (.swap e x _)

/-- Adding an entry for a caller that has none keeps the canonical order. -/
theorem pairwise_pendInsert {e : PendEntry} {l : List PendEntry} (hl : l.Pairwise fun a b => a.caller < b.caller)
    (he : ∀ x ∈ l, x.caller ≠ e.caller) : (pendInsert e l).Pairwise fun a b => a.caller < b.caller := by
  induction l with
  | nil => simp [pendInsert]
  | cons x rest ih =>
    rw [List.pairwise_cons] at hl
    simp only [pendInsert]
    split
    · rename_i hx
      refine List.pairwise_cons.mpr ⟨fun y hy => ?_, List.pairwise_cons.mpr hl⟩
      rcases List.mem_cons.mp hy with rfl | hy
      · exact hx
      · have := hl.1 y hy; omega
    · rename_i hx
      refine List.pairwise_cons.mpr ⟨fun y hy => ?_, ih hl.2 fun y hy => he y (.tail _ hy)⟩
      rcases mem_pendInsert.mp hy with rfl | hy
      · have := he x (.head _); omega
      · exact hl.1 y hy

/-- Two sets in canonical order with the same entries are the same list. -/
theorem pend_eq_of_perm {l l' : List PendEntry} (h : l.Perm l') (hl : l.Pairwise fun a b => a.caller < b.caller)
    (hl' : l'.Pairwise fun a b => a.caller < b.caller) : l = l' :=
  h.eq_of_pairwise (fun a b _ _ hab hba => by omega) hl hl'

end Sys2Proof.Machine
end

