-- ==== Sys2Proof/Laws/Buffers.lean ====
section
/-! SUPPORT. The laws of the buffers and of the big-endian images. -/

namespace Sys2Proof

@[simp] theorem beImage_length (n v : Nat) : (beImage n v).length = n := by
  induction n generalizing v with
  | zero => rfl
  | succ n ih => simp [beImage, ih]

theorem beImage_one (v : Nat) : beImage 1 v = [BitVec.ofNat 8 v] := rfl
theorem beImage_two (v : Nat) : beImage 2 v = be16 v := rfl
theorem beImage_four (v : Nat) : beImage 4 v = be32 v := by
  simp [beImage, be32, Nat.div_div_eq_div_mul]

@[simp] theorem be16_length (v : Nat) : (be16 v).length = 2 := rfl
@[simp] theorem be32_length (v : Nat) : (be32 v).length = 4 := rfl
@[simp] theorem zeros_length (n : Nat) : (zeros n).length = n := by simp [zeros]

/-- Reading a two-byte image back. -/
theorem readBe16_be16 {v : Nat} (h : v < 65536) : readBe16 (BitVec.ofNat 8 (v / 256)) (BitVec.ofNat 8 v) = v := by
  simp only [readBe16, BitVec.toNat_ofNat]; omega

/-- Reading a four-byte image back. -/
theorem readBe32_be32 {v : Nat} (h : v < 2 ^ 32) :
    readBe32 (BitVec.ofNat 8 (v / 2 ^ 24)) (BitVec.ofNat 8 (v / 2 ^ 16)) (BitVec.ofNat 8 (v / 256))
      (BitVec.ofNat 8 v) = v := by
  simp only [readBe32, BitVec.toNat_ofNat]; omega

/-- Writing the image of two bytes read gives those bytes. -/
theorem be16_readBe16 (a b : Byte) : be16 (readBe16 a b) = [a, b] := by
  have ha := a.isLt
  have hb := b.isLt
  simp only [be16, readBe16, List.cons.injEq, and_true]
  constructor <;> apply BitVec.eq_of_toNat_eq <;> simp only [BitVec.toNat_ofNat] <;> omega

/-- Writing the image of four bytes read gives those bytes. -/
theorem be32_readBe32 (a b c d : Byte) : be32 (readBe32 a b c d) = [a, b, c, d] := by
  have ha := a.isLt
  have hb := b.isLt
  have hc := c.isLt
  have hd := d.isLt
  simp only [be32, readBe32, List.cons.injEq, and_true]
  refine ⟨?_, ?_, ?_, ?_⟩ <;> apply BitVec.eq_of_toNat_eq <;> simp only [BitVec.toNat_ofNat] <;> omega

/-! Reads of a string made of two. -/

theorem byteAt_append_left {a : Bytes} {i : Nat} (h : i < a.length) (b : Bytes) : byteAt (a ++ b) i = byteAt a i := by
  simp only [byteAt, List.getD_eq_getElem?_getD, List.getElem?_append_left h]

theorem byteAt_append_right {a : Bytes} {i : Nat} (h : a.length ≤ i) (b : Bytes) :
    byteAt (a ++ b) i = byteAt b (i - a.length) := by
  simp only [byteAt, List.getD_eq_getElem?_getD, List.getElem?_append_right h]

theorem slice_append_left {a : Bytes} {j : Nat} (h : j ≤ a.length) (b : Bytes) (i : Nat) :
    slice (a ++ b) i j = slice a i j := by
  unfold slice
  rcases Nat.le_total i j with hij | hij
  · rw [List.drop_append_of_le_length (by omega), List.take_append_of_le_length (by simp; omega)]
  · simp [Nat.sub_eq_zero_of_le hij]

theorem slice_append_right {a : Bytes} {i : Nat} (h : a.length ≤ i) (b : Bytes) (j : Nat) :
    slice (a ++ b) i j = slice b (i - a.length) (j - a.length) := by
  unfold slice
  rw [List.drop_append, List.drop_eq_nil_of_le h, List.nil_append]
  congr 1
  omega

/-- The whole of a string. -/
theorem slice_all (b : Bytes) : slice b 0 b.length = b := by simp [slice]

/-! The layers of the packet (R51). -/

section
variable (w : WireConstants) (l : Nat)

theorem rootLayout_length {cid : Bytes} (h : cid.length = 16) : (rootLayout w l cid).length = 38 := by
  simp [rootLayout, h]

theorem framingLayout_length {name64 : Bytes} (h : name64.length = 64) (prio seq : Byte) (univ : Nat) :
    (framingLayout w l name64 prio seq univ).length = 77 := by
  simp [framingLayout, h]

@[simp] theorem dmpLayout_length : (dmpLayout w l).length = 11 := rfl

end

/-- The packet of R50 has `126 + L` bytes. -/
theorem packetLayout_length (w : WireConstants) {cid name64 : Bytes} (hc : cid.length = 16) (hn : name64.length = 64)
    (prio seq : Byte) (univ : Nat) (pay : Bytes) :
    (packetLayout w cid name64 prio seq univ pay).length = 126 + pay.length := by
  simp only [packetLayout, List.length_append, rootLayout_length w _ hc, framingLayout_length w _ hn, dmpLayout_length]
  omega

/-! Where a packet's bytes come from: the layer that holds the offset. -/

section
variable (w : WireConstants) {cid name64 : Bytes} (hc : cid.length = 16) (hn : name64.length = 64)
  (prio seq : Byte) (univ : Nat) (pay : Bytes)
include hc

theorem byteAt_root {i : Nat} (h : i < 38) :
    byteAt (packetLayout w cid name64 prio seq univ pay) i = byteAt (rootLayout w pay.length cid) i := by
  rw [packetLayout, byteAt_append_left (by rw [rootLayout_length w _ hc]; exact h)]

include hn

theorem byteAt_framing {i : Nat} (h : 38 ≤ i) (h' : i < 115) :
    byteAt (packetLayout w cid name64 prio seq univ pay) i =
      byteAt (framingLayout w pay.length name64 prio seq univ) (i - 38) := by
  rw [packetLayout, byteAt_append_right (by rw [rootLayout_length w _ hc]; exact h), rootLayout_length w _ hc,
    byteAt_append_left (by rw [framingLayout_length w _ hn]; omega)]

theorem byteAt_dmp {i : Nat} (h : 115 ≤ i) :
    byteAt (packetLayout w cid name64 prio seq univ pay) i = byteAt (dmpLayout w pay.length ++ pay) (i - 115) := by
  rw [packetLayout, byteAt_append_right (by rw [rootLayout_length w _ hc]; omega), rootLayout_length w _ hc,
    byteAt_append_right (by rw [framingLayout_length w _ hn]; omega), framingLayout_length w _ hn]
  congr 1

end

namespace Machine

/-- A write inside the buffer keeps its length. -/
theorem memWriteBytes_length {addr : Nat} {b out : Bytes} (h : addr + b.length ≤ out.length) :
    (memWriteBytes addr b out).length = out.length := by
  simp [memWriteBytes]; omega

/-- A write at the end of what has been written extends it, over the bytes that stood there. -/
theorem memWriteBytes_append {addr : Nat} {pre : Bytes} (hp : pre.length = addr) (b rest : Bytes) :
    memWriteBytes addr b (pre ++ rest) = (pre ++ b) ++ rest.drop b.length := by
  subst hp
  simp [memWriteBytes, List.drop_append]

/-- What is written is read back. -/
theorem memRead_memWriteBytes {addr : Nat} {b out : Bytes} (h : addr + b.length ≤ out.length) :
    memRead (memWriteBytes addr b out) addr b.length = b := by
  have : (out.take addr).length = addr := by simp; omega
  rw [memRead, memWriteBytes, List.append_assoc, List.drop_append_of_le_length (by omega),
    List.drop_of_length_le (by omega)]
  simp

@[simp] theorem nameField_length (name : Bytes) : (nameField name).length = 64 := by
  unfold nameField
  split
  · rename_i h
    simpa [Config.nameWidth] using h
  · rename_i h
    simp only [Config.nameWidth, List.length_append, zeros_length] at h ⊢
    omega

/-- Reading the whole payload gives the payload. -/
@[simp] theorem memRead_all (pay : Bytes) : memRead pay 0 pay.length = pay := by simp [memRead]

end Machine

end Sys2Proof
end

