-- ==== Sys2Proof/Laws/Builder.lean ====
section
/-! SUPPORT. What validation and `build` can answer. -/

namespace Sys2Proof.Machine

theorem universeRejected_false {p : Params} {univ : Nat} :
    universeRejected p univ = false ↔ (p.universePolicy = .reject → 1 ≤ univ ∧ univ ≤ 63999) := by
  cases h : p.universePolicy
  · simp only [universeRejected, h, Config.universeMax, decide_true, Bool.true_and, Bool.or_eq_false_iff,
      decide_eq_false_iff_not, forall_const, gt_iff_lt]
    omega
  · simp [universeRejected, h]

theorem priorityRejected_false {p : Params} {prio : Byte} :
    priorityRejected p prio = false ↔ (p.priorityPolicy = .reject → prio.toNat ≤ 200) := by
  cases h : p.priorityPolicy <;> simp [priorityRejected, h, Config.priorityMax]

/-- `validate` finds no cause exactly on a present identity and acceptable operands (R91). -/
theorem validate_none {p : Params} {univ : Nat} {name cid : Option Bytes} {pay : Bytes} {prio : Byte} :
    validate p univ name cid pay prio = none ↔
      ∃ n c, name = some n ∧ cid = some c ∧ Acceptable p univ c pay prio := by
  constructor
  · intro h
    unfold validate at h
    rcases cid with _ | c <;> rcases name with _ | n
    all_goals try (repeat' split at h) <;> simp_all
    rename_i h1 h2 h3 h4 h5 h6
    exact ⟨List.length_pos_iff.mpr h1, by simpa [Config.payloadMax] using h2, by simpa [Config.cidLen] using h3,
      by simpa [Config.universeLimit] using h4, universeRejected_false.mp h5, priorityRejected_false.mp h6⟩
  · rintro ⟨n, c, rfl, rfl, h⟩
    have hu := universeRejected_false.mpr h.univInRange
    have hp := priorityRejected_false.mpr h.prioInRange
    have := h.payPresent
    have := h.payFits
    have := h.univFits
    unfold validate
    rw [if_neg (by omega), if_neg (by simp only [Config.payloadMax]; omega), if_neg (by simp),
      if_neg (by simp [h.cidFits, Config.cidLen]), if_neg (by simp),
      if_neg (by simp only [Config.universeLimit]; omega), if_neg (by simp [hu]), if_neg (by simp [hp])]

/-- On acceptable operands `build` answers the written packet. -/
theorem build_of_acceptable {p : Params} {univ : Nat} {name cid pay : Bytes} {prio : Byte}
    (h : Acceptable p univ cid pay prio) (seq : Byte) :
    build p univ (some name) (some cid) seq pay prio =
      .ok (writePacket p.wire name cid seq univ pay prio (zeros (126 + pay.length))) := by
  have hv : validate p univ (some name) (some cid) pay prio = none :=
    validate_none.mpr ⟨name, cid, rfl, rfl, h⟩
  simp [build, hv, Config.hdrLen]

/-- What `build` answers when it succeeds. -/
theorem build_ok {p : Params} {univ : Nat} {name cid : Option Bytes} {seq : Byte} {pay : Bytes} {prio : Byte}
    {bytes : Bytes} (h : build p univ name cid seq pay prio = .ok bytes) :
    ∃ n c, name = some n ∧ cid = some c ∧ Acceptable p univ c pay prio
      ∧ bytes = writePacket p.wire n c seq univ pay prio (zeros (126 + pay.length)) := by
  unfold build at h
  split at h
  · cases h
  · rename_i hv
    obtain ⟨n, c, rfl, rfl, ha⟩ := validate_none.mp hv
    simp only [Option.getD_some, Except.ok.injEq] at h
    exact ⟨n, c, rfl, rfl, ha, h.symm⟩

end Sys2Proof.Machine
end

