-- ==== Sys2Proof/Laws/Decode.lean ====
section
/-! SUPPORT. The decoder by opcode byte, the flags byte, and what the packet row selects. -/

namespace Sys2Proof

@[simp] theorem decode_sendMcast (b : Bytes) : decode (0x01#8 :: b) = decodeSendMcast b := rfl
@[simp] theorem decode_sendUcast (b : Bytes) : decode (0x02#8 :: b) = decodeSendUcast b := rfl
@[simp] theorem decode_build (b : Bytes) : decode (0x03#8 :: b) = decodeBuild b := rfl
@[simp] theorem decode_mcastAddr (b : Bytes) : decode (0x04#8 :: b) = decodeMcastAddr b := rfl
@[simp] theorem decode_setMcastIf (b : Bytes) : decode (0x05#8 :: b) = decodeSetMcastIf b := rfl
@[simp] theorem decode_teardown (b : Bytes) : decode (0x06#8 :: b) = decodeTeardown b := rfl
@[simp] theorem decode_packet (b : Bytes) : decode (0x00#8 :: b) = decodePacket (0x00#8 :: b) := rfl

section
variable (p c n : Bool)

@[simp] theorem flagsByte_prio : (flagsByte p c n).getLsbD 0 = p := by cases p <;> cases c <;> cases n <;> rfl
@[simp] theorem flagsByte_cid : (flagsByte p c n).getLsbD 1 = c := by cases p <;> cases c <;> cases n <;> rfl
@[simp] theorem flagsByte_name : (flagsByte p c n).getLsbD 2 = n := by cases p <;> cases c <;> cases n <;> rfl
/-- The encoder sets no reserved flag bit of `BUILD`. -/
@[simp] theorem flagsByte_reserved : flagsByte p c n &&& 0xF8#8 = 0#8 := by cases p <;> cases c <;> cases n <;> rfl
/-- The encoder sets no reserved flag bit of a send. -/
@[simp] theorem flagsByte_reserved_send : flagsByte p false false &&& 0xFE#8 = 0#8 := by cases p <;> rfl

end

/-- The priority operand of an encoded command. -/
@[simp] theorem prioOperand_flagsByte (prio : Option Byte) (c n : Bool) :
    prioOperand (flagsByte prio.isSome c n) (prio.getD 0#8) = prio := by
  unfold prioOperand
  rw [flagsByte_prio]
  cases prio <;> rfl

theorem len8_toNat {b : Bytes} (h : b.length < 256) : (len8 b).toNat = b.length := by
  simp [len8, Nat.mod_eq_of_lt h]

/-! What a row selects, piece by piece. -/

theorem rowSelects_append {r : List (Byte × Byte)} {a : Bytes} (h : r.length = a.length) (r' : List (Byte × Byte))
    (b : Bytes) : rowSelects (r ++ r') (a ++ b) = (rowSelects r a && rowSelects r' b) := by
  induction r generalizing a with
  | nil => cases a with
    | nil => rfl
    | cons => simp at h
  | cons x r ih =>
    cases a with
    | nil => simp at h
    | cons y a =>
      simp only [List.length_cons, Nat.add_right_cancel_iff] at h
      simp [rowSelects, ih h, Bool.and_assoc]

/-- A row that selects a string is no longer than it. -/
theorem length_of_rowSelects {r : List (Byte × Byte)} {b : Bytes} (h : rowSelects r b = true) : r.length ≤ b.length := by
  induction r generalizing b with
  | nil => simp
  | cons x r ih =>
    cases b with
    | nil => simp [rowSelects] at h
    | cons y b =>
      simp only [rowSelects, Bool.and_eq_true] at h
      simpa using ih h.2

@[simp] theorem rowFixed_length (b : Bytes) : (rowFixed b).length = b.length := by simp [rowFixed]
@[simp] theorem rowFree_length (n : Nat) : (rowFree n).length = n := by simp [rowFree]
@[simp] theorem rowFlags_length : rowFlags.length = 2 := rfl

theorem and_allOnes (x : Byte) : x &&& 0xFF#8 = x := by
  have : 0xFF#8 = BitVec.allOnes 8 := rfl
  rw [this, BitVec.and_allOnes]

/-- The fixed bytes of a row are the bytes of the string. -/
theorem rowSelects_fixed {v b : Bytes} (h : v.length = b.length) : rowSelects (rowFixed v) b = true ↔ b = v := by
  induction v generalizing b with
  | nil => cases b with
    | nil => simp [rowFixed, rowSelects]
    | cons => simp at h
  | cons x v ih =>
    cases b with
    | nil => simp at h
    | cons y b =>
      simp only [List.length_cons, Nat.add_right_cancel_iff] at h
      have := ih h
      simp only [rowFixed] at this
      simp only [rowFixed, List.map_cons, rowSelects, and_allOnes, Bool.and_eq_true, beq_iff_eq, this,
        List.cons.injEq]

/-- Free offsets select every string of that length. -/
theorem rowSelects_free {b : Bytes} : rowSelects (rowFree b.length) b = true := by
  induction b with
  | nil => rfl
  | cons x b ih =>
    simp only [rowFree] at ih
    simp only [rowFree, List.length_cons, List.replicate_succ, rowSelects, ih, Bool.and_true]
    simp

/-- A flags-and-length field of the packet row is one whose high nibble is 7. -/
theorem rowSelects_flags (a b : Byte) : rowSelects rowFlags [a, b] = true ↔ readBe16 a b / 4096 = 7 := by
  have nibble : ((a &&& 0xF0#8) == 0x70#8) = decide (a.toNat / 16 = 7) := by revert a; decide
  have any : ((b &&& 0x00#8) == 0x00#8) = true := by simp
  have ha := a.isLt
  have hb := b.isLt
  simp only [rowSelects, rowFlags, nibble, any, readBe16, Bool.and_true, decide_eq_true_eq]
  omega

/-- An instruction with an encoding is a command of R76 or the packet. -/
theorem isCommand_of_wellFormed {i : Instr} (h : i.wellFormed = true) :
    i.isCommand = true ∨ ∃ cid name prio seq univ pay, i = .e131DataPacket cid name prio seq univ pay := by
  cases i with
  | sendUcast host univ pay prio =>
    simp only [Instr.wellFormed, Bool.and_eq_true] at h
    exact .inl h.1.1
  | setMcastIf selector =>
    cases selector <;> simp_all [Instr.wellFormed, IfSelector.wellFormed, Instr.isCommand, IfSelector.legal]
  | e131DataPacket cid name prio seq univ pay => exact .inr ⟨_, _, _, _, _, _, rfl⟩
  | sendMcast | build | mcastAddr | teardown => exact .inl rfl

end Sys2Proof
end

