-- ==== Sys2Proof/Laws/Sender.lean ====
section
/-! SUPPORT. What an issue step and each instruction can do: one inversion lemma for each. -/

namespace Sys2Proof.Machine

/-! The fields after the two ways a send can go. -/

section
variable (s : State) (cmd : Option Instr) (e : Error)

@[simp] theorem State.reject_seq : (s.reject cmd e).seq = s.seq := rfl
@[simp] theorem State.reject_cid : (s.reject cmd e).cid = s.cid := rfl
@[simp] theorem State.reject_name : (s.reject cmd e).name = s.name := rfl
@[simp] theorem State.reject_port : (s.reject cmd e).port = s.port := rfl
@[simp] theorem State.reject_mcastIf : (s.reject cmd e).mcastIf = s.mcastIf := rfl
@[simp] theorem State.reject_tornDown : (s.reject cmd e).tornDown = s.tornDown := rfl
@[simp] theorem State.reject_pend : (s.reject cmd e).pend = s.pend := rfl
@[simp] theorem State.reject_hist : (s.reject cmd e).hist = s.hist ++ [.rejected s.caller cmd e] := rfl
@[simp] theorem State.reject_caller : (s.reject cmd e).caller = s.caller := rfl
@[simp] theorem State.reject_inbox : (s.reject cmd e).inbox = s.inbox := rfl
@[simp] theorem State.reject_rsp : (s.reject cmd e).rsp = s.rsp ++ [(s.caller, .err e)] := rfl
@[simp] theorem State.reject_toTransport : (s.reject cmd e).toTransport = s.toTransport := rfl
@[simp] theorem State.reject_params : (s.reject cmd e).params = s.params := rfl

/-- Raising an error changes nothing of the block (R145, R148). -/
theorem sameBlock_reject : SameBlock s (s.reject cmd e) := ⟨rfl, rfl, rfl, rfl, rfl, rfl, rfl, rfl⟩

end

section
variable (s : State) (cmd : Instr) (univ : Nat) (dest : Dest) (bytes : Bytes)

@[simp] theorem State.queueSend_seq :
    (s.queueSend cmd univ dest bytes).seq = Memory.insert univ (nextSeq (s.seqRead univ)) s.seq := rfl
@[simp] theorem State.queueSend_cid : (s.queueSend cmd univ dest bytes).cid = s.cid := rfl
@[simp] theorem State.queueSend_name : (s.queueSend cmd univ dest bytes).name = s.name := rfl
@[simp] theorem State.queueSend_port : (s.queueSend cmd univ dest bytes).port = s.port := rfl
@[simp] theorem State.queueSend_mcastIf : (s.queueSend cmd univ dest bytes).mcastIf = s.mcastIf := rfl
@[simp] theorem State.queueSend_tornDown : (s.queueSend cmd univ dest bytes).tornDown = s.tornDown := rfl
@[simp] theorem State.queueSend_pend :
    (s.queueSend cmd univ dest bytes).pend =
      pendInsert ⟨s.caller, dest, s.port, bytes, univ, s.seqRead univ⟩ s.pend := rfl
@[simp] theorem State.queueSend_hist :
    (s.queueSend cmd univ dest bytes).hist =
      s.hist ++ [.issued s.caller cmd univ (s.seqRead univ) dest s.port bytes] := rfl
@[simp] theorem State.queueSend_caller : (s.queueSend cmd univ dest bytes).caller = s.caller := rfl
@[simp] theorem State.queueSend_inbox : (s.queueSend cmd univ dest bytes).inbox = s.inbox := rfl
@[simp] theorem State.queueSend_rsp : (s.queueSend cmd univ dest bytes).rsp = s.rsp := rfl
@[simp] theorem State.queueSend_toTransport :
    (s.queueSend cmd univ dest bytes).toTransport = s.toTransport ++ [.tx dest s.port bytes] := rfl
@[simp] theorem State.queueSend_params : (s.queueSend cmd univ dest bytes).params = s.params := rfl

@[simp] theorem State.queueSend_seqRead_self :
    (s.queueSend cmd univ dest bytes).seqRead univ = nextSeq (s.seqRead univ) := by simp [State.seqRead]

@[simp] theorem State.queueSend_inDom_self : (s.queueSend cmd univ dest bytes).inDom univ = true := by
  simp [State.inDom]

theorem State.queueSend_seqRead_other {v : Nat} (h : v ≠ univ) :
    (s.queueSend cmd univ dest bytes).seqRead v = s.seqRead v := by simp [State.seqRead, lookup_insert_other h]

theorem State.queueSend_inDom_other {v : Nat} (h : v ≠ univ) :
    (s.queueSend cmd univ dest bytes).inDom v = s.inDom v := by simp [State.inDom, lookup_insert_other h]

end

/-- An issue step either answers an error or queues the packet that `build` made (R113). -/
theorem issue_cases (cmd : Instr) (univ : Nat) (pay : Bytes) (prio : Option Byte) (dest : Dest) (s : State) :
    (∃ e, issue cmd univ pay prio dest s = s.reject (some cmd) e)
    ∨ ∃ bytes, s.tornDown = false
        ∧ build s.params univ s.name s.cid (s.seqRead univ) pay (priorityOf prio) = .ok bytes
        ∧ issue cmd univ pay prio dest s = s.queueSend cmd univ dest bytes := by
  unfold issue
  split
  · exact .inl ⟨_, rfl⟩
  · rename_i hd
    split
    · exact .inl ⟨_, rfl⟩
    · rename_i hb
      exact .inr ⟨_, by simpa using hd, hb, rfl⟩

/-- A send that passes queues its packet (R113). -/
theorem issue_of_ready {s : State} {univ : Nat} {pay : Bytes} {prio : Option Byte} {name cid : Bytes}
    (h : ReadyToSend s univ pay prio name cid) (cmd : Instr) (dest : Dest) :
    issue cmd univ pay prio dest s = s.queueSend cmd univ dest
      (writePacket s.params.wire name cid (s.seqRead univ) univ pay (priorityOf prio) (zeros (126 + pay.length))) := by
  simp [issue, h.up, h.named, h.identified, build_of_acceptable h.accepted]

/-- Everything an instruction that answers a next state can have done. -/
theorem exec_cases {i : Instr} {s t : State} (h : exec i s = .next t) :
    (∃ cmd e, t = s.reject cmd e)
    ∨ (∃ univ pay prio dest bytes, i.sendsOn univ ∧ s.tornDown = false
        ∧ (dest = mcastAddr s.params univ ∨ ∃ host, dest = .ucast host)
        ∧ build s.params univ s.name s.cid (s.seqRead univ) pay (priorityOf prio) = .ok bytes
        ∧ t = s.queueSend i univ dest bytes)
    ∨ (∃ r, t = (s.record (.built s.caller r)).respond (.ok r))
    ∨ (∃ sel, i = .setMcastIf sel ∧ s.tornDown = false ∧ familyOf sel ∈ s.params.ifFamilies
        ∧ t = (((s.tell (.useInterface sel)).setIf (some sel)).record (.configured s.caller sel none)).respond (.ok []))
    ∨ (∃ sel, t = (s.record (.configured s.caller sel (some .addressFamily))).respond (.err .addressFamily))
    ∨ (i = .teardown ∧ s.pend = []
        ∧ t = ((s.tearDown.tell .releaseHandle).record (.tornDown s.caller)).respond (.ok [])) := by
  cases i with
  | sendMcast univ pay prio =>
    simp only [exec, execSendMcast, Host.Outcome.next.injEq] at h
    subst h
    rcases issue_cases (.sendMcast univ pay prio) univ pay prio (mcastAddr s.params univ) s with ⟨e, h⟩ | ⟨b, hd, hb, h⟩
    · exact .inl ⟨_, _, h⟩
    · exact .inr (.inl ⟨univ, pay, prio, _, b, rfl, hd, .inl rfl, hb, h⟩)
  | sendUcast host univ pay prio =>
    simp only [exec, execSendUcast, Host.Outcome.next.injEq] at h
    subst h
    rcases issue_cases (.sendUcast host univ pay prio) univ pay prio (.ucast host) s with ⟨e, h⟩ | ⟨b, hd, hb, h⟩
    · exact .inl ⟨_, _, h⟩
    · exact .inr (.inl ⟨univ, pay, prio, _, b, rfl, hd, .inr ⟨_, rfl⟩, hb, h⟩)
  | build univ name cid seq pay prio =>
    simp only [exec, execBuild] at h
    split at h <;> cases h
    · exact .inr (.inr (.inl ⟨_, rfl⟩))
    · exact .inl ⟨_, _, rfl⟩
  | mcastAddr univ =>
    simp only [exec, execMcastAddr] at h
    split at h <;> cases h
    · exact .inl ⟨_, _, rfl⟩
    · exact .inr (.inr (.inl ⟨_, rfl⟩))
  | setMcastIf sel =>
    simp only [exec, execSetMcastIf] at h
    split at h
    · cases h; exact .inl ⟨_, _, rfl⟩
    · rename_i hd
      split at h <;> rename_i hf <;> cases h
      · exact .inr (.inr (.inr (.inl ⟨_, rfl, by simpa using hd, hf, rfl⟩)))
      · exact .inr (.inr (.inr (.inr (.inl ⟨_, rfl⟩))))
  | teardown =>
    simp only [exec, execTeardown] at h
    split at h
    · rename_i hp; cases h; exact .inr (.inr (.inr (.inr (.inr ⟨rfl, hp, rfl⟩))))
    · cases h
  | e131DataPacket cid name prio seq univ pay =>
    simp only [exec, execE131DataPacket, Host.Outcome.next.injEq] at h
    exact .inl ⟨_, _, h.symm⟩

end Sys2Proof.Machine
end

