-- ==== Sys2Proof/Laws/Step.lean ====
section
/-! SUPPORT. What a step can do: which input is taken, and one inversion lemma. -/

namespace Sys2Proof.Machine

/-- What `takeFirst` takes: the first that satisfies the test. -/
theorem takeFirst_some {α : Type} {p : α → Bool} {l : List α} {x : α} {rest : List α}
    (h : takeFirst p l = some (x, rest)) :
    ∃ before after, l = before ++ x :: after ∧ rest = before ++ after ∧ p x = true ∧ ∀ y ∈ before, p y = false := by
  induction l generalizing x rest with
  | nil => simp [takeFirst] at h
  | cons y l ih =>
    simp only [takeFirst] at h
    split at h
    · rename_i hy; cases h; exact ⟨[], l, rfl, rfl, hy, by simp⟩
    · rename_i hy
      split at h
      · cases h
      · rename_i z others hz
        cases h
        obtain ⟨before, after, rfl, rfl, hx, hb⟩ := ih hz
        refine ⟨y :: before, after, rfl, rfl, hx, ?_⟩
        intro w hw
        rcases List.mem_cons.mp hw with rfl | hw
        · simpa using hy
        · exact hb w hw

theorem takeFirst_none {α : Type} {p : α → Bool} {l : List α} (h : takeFirst p l = none) : ∀ x ∈ l, p x = false := by
  induction l with
  | nil => simp
  | cons y l ih =>
    simp only [takeFirst] at h
    split at h
    · cases h
    · rename_i hy
      split at h
      · rename_i hz
        intro w hw
        rcases List.mem_cons.mp hw with rfl | hw
        · simpa using hy
        · exact ih hz w hw
      · cases h

/-- An input at the head that can be taken is taken. -/
theorem takeFirst_head {α : Type} {p : α → Bool} {x : α} (h : p x = true) (l : List α) :
    takeFirst p (x :: l) = some (x, l) := by simp [takeFirst, h]

/-- The input taken can be taken. -/
theorem enabled_of_nextInput {s : State} {x : Input} {rest : List Input} (h : s.nextInput = some (x, rest)) :
    x.enabled s = true := by
  obtain ⟨_, _, _, _, hx, _⟩ := takeFirst_some h
  exact hx

/-- A port accepts a command exactly when it exists and has nothing pending. -/
@[simp] theorem State.accepts_iff {s : State} {c : Nat} :
    s.accepts c = true ↔ c < s.params.nports ∧ pendFind c s.pend = none := by
  simp [State.accepts, State.busy]

/-- A descriptor is taken only for a port that accepts it. -/
theorem idle_of_nextInput {s : State} {c : Nat} {d : Bytes} {rest : List Input}
    (h : s.nextInput = some (.cmd c d, rest)) : c < s.params.nports ∧ pendFind c s.pend = none :=
  State.accepts_iff.mp (enabled_of_nextInput h)

/-- An instruction is taken, in either form, only for a port that accepts it. -/
theorem idle_of_presents {s : State} {c : Nat} {i : Instr} {x : Input} {rest : List Input}
    (h : s.nextInput = some (x, rest)) (hx : x.Presents c i) : c < s.params.nports ∧ pendFind c s.pend = none := by
  rcases hx with rfl | ⟨d, rfl, -⟩
  · have := enabled_of_nextInput h
    simp only [Input.enabled, Bool.and_eq_true] at this
    exact State.accepts_iff.mp this.1
  · exact idle_of_nextInput h

/-- What an input that presents an instruction does: it runs it for its port. -/
theorem serve_of_presents {c : Nat} {i : Instr} {x : Input} (hx : x.Presents c i) (s : State) :
    serve x s = exec i (s.serving c) := by
  rcases hx with rfl | ⟨d, rfl, hd⟩
  · rfl
  · simp [serve, serveCommand, hd]

/-- A completion is taken only for a pending entry that its status can answer. -/
theorem pending_of_nextInput {s : State} {c : Nat} {st : TxStatus} {rest : List Input}
    (h : s.nextInput = some (.txs c st, rest)) :
    ∃ e, pendFind c s.pend = some e ∧ st.answers e.dest = true := by
  have := enabled_of_nextInput h
  simp only [Input.enabled] at this
  split at this
  · cases this
  · exact ⟨_, ‹_›, this⟩

/-- Everything a step that answers a next state can have done: wait, answer a reserved descriptor, run an instruction,
complete a transmission, or construct. -/
theorem step_cases {s t : State} (h : step s = .next t) :
    (s.nextInput = none ∧ t = s)
    ∨ ∃ x rest, s.nextInput = some (x, rest) ∧
      ((∃ c d r, x = .cmd c d ∧ decode d = .error r ∧ t = ((s.withInbox rest).serving c).rejectReserved)
      ∨ (∃ c i, x.Presents c i ∧ exec i ((s.withInbox rest).serving c) = .next t)
      ∨ (∃ c st e, x = .txs c st ∧ pendFind c s.pend = some e ∧ e.caller = c ∧ t = complete e st (s.withInbox rest))
      ∨ (∃ c cid name port iface, x = .construct c cid name port iface
          ∧ construct c cid name port iface (s.withInbox rest) = .next t)) := by
  unfold step at h
  split at h
  · rename_i hn; cases h; exact .inl ⟨hn, rfl⟩
  · rename_i x rest hn
    refine .inr ⟨x, rest, hn, ?_⟩
    cases x with
    | cmd c d =>
      simp only [serve, serveCommand] at h
      split at h
      · exact .inr (.inl ⟨c, _, .inr ⟨d, rfl, ‹_›⟩, h⟩)
      · cases h; exact .inl ⟨c, d, _, rfl, ‹_›, rfl⟩
    | command c i => exact .inr (.inl ⟨c, i, .inl rfl, h⟩)
    | txs c st =>
      obtain ⟨e, he, _⟩ := pending_of_nextInput hn
      simp only [serve, serveStatus, State.withInbox_pend, he, Host.Outcome.next.injEq] at h
      exact .inr (.inr (.inl ⟨c, st, e, rfl, he, (pendFind_some he).2, h.symm⟩))
    | construct c cid name port iface =>
      exact .inr (.inr (.inr ⟨c, cid, name, port, iface, rfl, h⟩))

/-- Which input is taken next does not depend on `MCAST_IF`. -/
@[simp] theorem nextInput_withInterface (s : State) (sel : Option IfSelector) :
    ({ s with mcastIf := sel } : State).nextInput = s.nextInput := rfl

theorem AlikeButForInterface.refl (o : Host.Outcome State Fault Refusal) : AlikeButForInterface o o := by
  cases o with
  | next t => rfl
  | fault f => cases f
  | refused r => rfl

@[simp] theorem Event.naming_naming (i j : Instr) (e : Event) : (e.naming i).naming j = e.naming j := by
  cases e <;> simp [Event.naming, Function.comp_def]

@[simp] theorem Event.naming_built (i : Instr) (c : Nat) (r : Bytes) : (Event.built c r).naming i = .built c r := rfl

end Sys2Proof.Machine
end

