-- ==== Sys2Proof/Laws/PerInstr.lean ====
section
/-! SUPPORT. The family `SelfDelimiting`: the length fields of an encoded well-formed instruction give its length, so a
reader of a stream of descriptors knows where each ends. One lemma per constructor. -/

namespace Sys2Proof.Laws.SelfDelimiting

/-- The encoding of a well-formed instruction is as long as its own length fields say (R77 to R81, R89). -/
def Statement (i : Instr) : Prop := i.wellFormed = true → descriptorLength (encode i) = (encode i).length

theorem sendMcast (univ : Nat) (pay : Bytes) (prio : Option Byte) : Statement (.sendMcast univ pay prio) := by
  intro h
  simp only [Instr.wellFormed, Bool.and_eq_true, decide_eq_true_eq] at h
  simp only [descriptorLength, encode, byteAt, be32, be16, List.cons_append, List.nil_append, List.getD_cons_zero,
    List.getD_cons_succ, true_or, if_true, readBe16_be16 h.2, List.length_cons]
  simp; omega

theorem sendUcast (host : Bytes) (univ : Nat) (pay : Bytes) (prio : Option Byte) :
    Statement (.sendUcast host univ pay prio) := by
  intro h
  simp only [Instr.wellFormed, Bool.and_eq_true, decide_eq_true_eq] at h
  simp only [descriptorLength, encode, byteAt, be32, be16, List.cons_append, List.nil_append, List.getD_cons_zero,
    List.getD_cons_succ, or_true, if_true, readBe16_be16 h.2, List.length_cons, List.length_append, len8,
    BitVec.toNat_ofNat, Nat.mod_eq_of_lt h.1.1]
  omega

theorem build (univ : Nat) (name cid : Option Bytes) (seq : Byte) (pay : Bytes) (prio : Option Byte) :
    Statement (.build univ name cid seq pay prio) := by
  intro h
  simp only [Instr.wellFormed, Bool.and_eq_true, decide_eq_true_eq] at h
  simp [descriptorLength, encode, byteAt, be32, be16, len8, readBe16_be16 h.2, readBe16_be16 h.1.1.2,
    Nat.mod_eq_of_lt h.1.2]
  omega

theorem mcastAddr (univ : Nat) : Statement (.mcastAddr univ) := fun _ => rfl

theorem setMcastIf (selector : IfSelector) : Statement (.setMcastIf selector) := by
  intro h
  cases selector with
  | byIndex n => rfl
  | byIPv4 a =>
    simp only [Instr.wellFormed, IfSelector.wellFormed, beq_iff_eq] at h
    simp [descriptorLength, encode, encodeSelector, byteAt, len8, h]
  | byIPv6 a =>
    simp only [Instr.wellFormed, IfSelector.wellFormed, beq_iff_eq] at h
    simp [descriptorLength, encode, encodeSelector, byteAt, len8, h]
  | byOther kind sel =>
    simp only [Instr.wellFormed, IfSelector.wellFormed, Bool.and_eq_true, decide_eq_true_eq] at h
    simp [descriptorLength, encode, encodeSelector, byteAt, len8, Nat.mod_eq_of_lt h.2]
    omega

theorem teardown : Statement .teardown := fun _ => rfl

theorem e131DataPacket (cid name : Bytes) (prio seq : Byte) (univ : Nat) (pay : Bytes) :
    Statement (.e131DataPacket cid name prio seq univ pay) := by
  intro h
  simp only [Instr.wellFormed, Bool.and_eq_true, decide_eq_true_eq, beq_iff_eq] at h
  obtain ⟨⟨⟨⟨hc, hn⟩, -⟩, h1⟩, h512⟩ := h
  have first : byteAt (packetLayout .e131 cid name prio seq univ pay) 0 = 0 := by
    rw [byteAt_root _ hc _ _ _ _ (by omega)]; rfl
  have high : byteAt (packetLayout .e131 cid name prio seq univ pay) 123 =
      BitVec.ofNat 8 ((pay.length + 1) / 256) := by
    rw [byteAt_dmp _ hc hn _ _ _ _ (by omega)]; rfl
  have low : byteAt (packetLayout .e131 cid name prio seq univ pay) 124 = BitVec.ofNat 8 (pay.length + 1) := by
    rw [byteAt_dmp _ hc hn _ _ _ _ (by omega)]; rfl
  simp only [encode, packetLayout_length _ hc hn]
  unfold descriptorLength
  rw [high, low, first, readBe16_be16 (by omega)]
  simp; omega

end Sys2Proof.Laws.SelfDelimiting
end

