-- ==== Sys2Proof/Tests/Slice0.lean ====
section
/-! SUPPORT. Tests: ill-formed instructions refused, descriptors decoded, one step of each command, and for every statement
with hypotheses a named witness that meets them. Expected values are those of spec/95_test_vectors.md (V1 to V9, P1 to P5)
and of the rules named; none was taken from the model. -/

namespace Sys2Proof.Tests

open Sys2Proof Sys2Proof.Machine

set_option Elab.async false

/-! ### Helpers -/

/-- The CID of 95_test_vectors.md. -/
def cid : Bytes := [0x00, 0x01, 0x02, 0x03, 0x04, 0x05, 0x06, 0x07, 0x08, 0x09, 0x0A, 0x0B, 0x0C, 0x0D, 0x0E, 0x0F]

/-- `"Test"`. -/
def name : Bytes := [0x54, 0x65, 0x73, 0x74]

/-- `"10.0.0.7"`. -/
def host : Bytes := [0x31, 0x30, 0x2E, 0x30, 0x2E, 0x30, 0x2E, 0x37]

/-- The block of 95_test_vectors.md: `CONSTRUCT cid=00..0F name="Test"`. -/
def block : State := { State.reset with cid := some cid, name := some name }

/-- The block with both range policies changed from their defaults. -/
def otherPolicies : Params := { Params.default with universePolicy := .pass, priorityPolicy := .reject }

/-- What a next state holds, `none` for a stop. -/
def ifNext {α : Type} (o : Host.Outcome State Fault Refusal) (f : State → α) : Option α :=
  match o with
  | .next t => some (f t)
  | .fault _ => none
  | .refused _ => none

/-- The packet V7c with the sequence byte `seq` (P1). -/
def packetV7c (seq : Byte) : Bytes :=
  [0x00, 0x10, 0x00, 0x00, 0x41, 0x53, 0x43, 0x2D, 0x45, 0x31, 0x2E, 0x31, 0x37, 0x00, 0x00, 0x00]
    ++ [0x70, 0x71, 0x00, 0x00, 0x00, 0x04, 0x00, 0x01, 0x02, 0x03, 0x04, 0x05, 0x06, 0x07, 0x08, 0x09]
    ++ [0x0A, 0x0B, 0x0C, 0x0D, 0x0E, 0x0F, 0x70, 0x5B, 0x00, 0x00, 0x00, 0x02, 0x54, 0x65, 0x73, 0x74]
    ++ zeros 60 ++ [0x64, 0x00, 0x00, seq, 0x00, 0x00, 0x01]
    ++ [0x70, 0x0E, 0x02, 0xA1, 0x00, 0x00, 0x00, 0x01, 0x00, 0x04, 0x00, 0xFF, 0x00, 0x80]

/-- The packet V7a. -/
def packetV7a : Bytes :=
  [0x00, 0x10, 0x00, 0x00, 0x41, 0x53, 0x43, 0x2D, 0x45, 0x31, 0x2E, 0x31, 0x37, 0x00, 0x00, 0x00]
    ++ [0x70, 0x6F, 0x00, 0x00, 0x00, 0x04, 0x00, 0x01, 0x02, 0x03, 0x04, 0x05, 0x06, 0x07, 0x08, 0x09]
    ++ [0x0A, 0x0B, 0x0C, 0x0D, 0x0E, 0x0F, 0x70, 0x59, 0x00, 0x00, 0x00, 0x02] ++ zeros 64
    ++ [0xC8, 0x00, 0x00, 0xFF, 0x00, 0xF9, 0xFF]
    ++ [0x70, 0x0C, 0x02, 0xA1, 0x00, 0x00, 0x00, 0x01, 0x00, 0x02, 0x00, 0x7F]

/-- The datagram of P1, step 3. -/
def packetP1 : Bytes :=
  [0x00, 0x10, 0x00, 0x00, 0x41, 0x53, 0x43, 0x2D, 0x45, 0x31, 0x2E, 0x31, 0x37, 0x00, 0x00, 0x00]
    ++ [0x70, 0x6F, 0x00, 0x00, 0x00, 0x04, 0x00, 0x01, 0x02, 0x03, 0x04, 0x05, 0x06, 0x07, 0x08, 0x09]
    ++ [0x0A, 0x0B, 0x0C, 0x0D, 0x0E, 0x0F, 0x70, 0x59, 0x00, 0x00, 0x00, 0x02, 0x54, 0x65, 0x73, 0x74]
    ++ zeros 60 ++ [0x96, 0x00, 0x00, 0x00, 0x00, 0x00, 0x02]
    ++ [0x70, 0x0C, 0x02, 0xA1, 0x00, 0x00, 0x00, 0x01, 0x00, 0x02, 0x00, 0x01]

/-- The entry of caller 3 for the first multicast send of P1. -/
def mcastEntry : PendEntry :=
  { caller := 3, dest := .mcast 239 255 0 1, port := 5568, bytes := packetV7c 0, univ := 1, seq := 0 }

/-- The entry of caller 5 for a unicast send of the same payload on the same universe, the next after it. -/
def ucastEntry : PendEntry :=
  { caller := 5, dest := .ucast host, port := 5568, bytes := packetV7c 1, univ := 1, seq := 1 }

/-- The block after those two sends, both pending. -/
def sending : State :=
  { block with
    seq := [(1, 2)], pend := [mcastEntry, ucastEntry]
    hist := [.issued 3 (.sendMcast 1 [255, 0, 128] none) 1 0 (.mcast 239 255 0 1) 5568 (packetV7c 0),
      .issued 5 (.sendUcast host 1 [255, 0, 128] none) 1 1 (.ucast host) 5568 (packetV7c 1)]
    toTransport := [.createHandle, .tx (.mcast 239 255 0 1) 5568 (packetV7c 0), .tx (.ucast host) 5568 (packetV7c 1)] }

/-! ### Ill-formed instructions, one for each check of `wellFormed` -/

theorem test_ill_formed_send_universe : (Instr.sendMcast (2 ^ 32) [] none).wellFormed = false := by decide
theorem test_ill_formed_send_payload : (Instr.sendMcast 1 (zeros 65536) none).wellFormed = false := by
  simp [Instr.wellFormed]
theorem test_ill_formed_host : (Instr.sendUcast (zeros 256) 1 [] none).wellFormed = false := by decide +kernel
theorem test_ill_formed_ucast_universe : (Instr.sendUcast [] (2 ^ 32) [] none).wellFormed = false := by decide
theorem test_ill_formed_ucast_payload : (Instr.sendUcast [] 1 (zeros 65536) none).wellFormed = false := by
  simp [Instr.wellFormed]
theorem test_ill_formed_build_universe : (Instr.build (2 ^ 32) none none 0 [] none).wellFormed = false := by decide
theorem test_ill_formed_build_name : (Instr.build 1 (some (zeros 65536)) none 0 [] none).wellFormed = false := by
  simp [Instr.wellFormed]
theorem test_ill_formed_build_cid : (Instr.build 1 none (some (zeros 256)) 0 [] none).wellFormed = false := by decide +kernel
theorem test_ill_formed_build_payload : (Instr.build 1 none none 0 (zeros 65536) none).wellFormed = false := by
  simp [Instr.wellFormed]
theorem test_ill_formed_addr_universe : (Instr.mcastAddr (2 ^ 32)).wellFormed = false := by decide
theorem test_ill_formed_ipv4 : (Instr.setMcastIf (.byIPv4 [10, 0, 0])).wellFormed = false := by decide
theorem test_ill_formed_ipv6 : (Instr.setMcastIf (.byIPv6 [10, 0, 0, 7])).wellFormed = false := by decide
theorem test_ill_formed_kind : (Instr.setMcastIf (.byOther 2 [])).wellFormed = false := by decide
theorem test_ill_formed_selector : (Instr.setMcastIf (.byOther 3 (zeros 256))).wellFormed = false := by decide +kernel
theorem test_ill_formed_packet_cid : (Instr.e131DataPacket (zeros 15) (zeros 64) 0 0 1 [1]).wellFormed = false := by decide
theorem test_ill_formed_packet_name : (Instr.e131DataPacket cid (zeros 63) 0 0 1 [1]).wellFormed = false := by decide
theorem test_ill_formed_packet_universe : (Instr.e131DataPacket cid (zeros 64) 0 0 65536 [1]).wellFormed = false := by
  decide
theorem test_ill_formed_packet_empty : (Instr.e131DataPacket cid (zeros 64) 0 0 1 []).wellFormed = false := by decide
theorem test_ill_formed_packet_long : (Instr.e131DataPacket cid (zeros 64) 0 0 1 (zeros 513)).wellFormed = false := by
  decide +kernel

/-! ### Decoding: the descriptors of V9, and reserved ones -/

theorem test_decode_send_mcast :
    decode [0x01, 0x01, 0x64, 0x00, 0x00, 0x00, 0x00, 0x01, 0x00, 0x03, 0xFF, 0x00, 0x80]
      = .ok (.sendMcast 1 [255, 0, 128] (some 100)) := by decide
theorem test_decode_send_mcast_large_universe :
    decode [0x01, 0x00, 0x00, 0x00, 0x00, 0x01, 0x00, 0x00, 0x00, 0x01, 0x00] = .ok (.sendMcast 65536 [0] none) := by decide
theorem test_decode_send_ucast :
    decode [0x02, 0x01, 0x96, 0x08, 0x00, 0x00, 0x00, 0x02, 0x00, 0x01, 0x31, 0x30, 0x2E, 0x30, 0x2E, 0x30, 0x2E, 0x37, 0x01]
      = .ok (.sendUcast host 2 [1] (some 150)) := by decide
theorem test_decode_build :
    decode ([0x03, 0x07, 0xC9, 0x09, 0x00, 0x00, 0x01, 0x2C, 0x00, 0x02, 0x10, 0x00, 0x46] ++ cid
        ++ List.replicate 70 0x41 ++ [0x01, 0x02])
      = .ok (.build 300 (some (List.replicate 70 0x41)) (some cid) 9 [1, 2] (some 201)) := by decide +kernel
theorem test_decode_mcast_addr : decode [0x04, 0x00, 0x00, 0x02, 0x01] = .ok (.mcastAddr 513) := by decide
theorem test_decode_set_mcast_if :
    decode [0x05, 0x01, 0x04, 0xC0, 0xA8, 0x01, 0x0A] = .ok (.setMcastIf (.byIPv4 [192, 168, 1, 10])) := by decide
theorem test_decode_teardown : decode [0x06] = .ok .teardown := by decide
theorem test_decode_packet :
    decode packetV7a = .ok (.e131DataPacket cid (zeros 64) 200 255 63999 [0x7F]) := by decide +kernel
theorem test_reserved_opcodes : decode [0x00] = .error .opcode ∧ decode [0x07] = .error .opcode
    ∧ decode [0xFF] = .error .opcode ∧ decode [] = .error .noOpcode := by decide
theorem test_reserved_host_in_mcast :
    decode [0x01, 0x00, 0x00, 0x01, 0x00, 0x00, 0x00, 0x01, 0x00, 0x01, 0x41, 0x00] = .error .hostInMcast := by decide
theorem test_reserved_flag_bit :
    decode [0x01, 0x80, 0x00, 0x00, 0x00, 0x00, 0x00, 0x01, 0x00, 0x01, 0x00] = .error .flagBits := by decide
theorem test_reserved_build_operands :
    decode [0x03, 0x08, 0, 0, 0, 0, 0, 1, 0, 0, 0, 0, 0] = .error .flagBits
    ∧ decode [0x03, 0x00, 0, 0, 0, 0, 0, 1, 0, 0, 1, 0, 0, 0] = .error .cidWithoutFlag
    ∧ decode [0x03, 0x00, 0, 0, 0, 0, 0, 1, 0, 0, 0, 0, 1, 0] = .error .nameWithoutFlag := by decide
theorem test_reserved_selector_size : decode [0x05, 0x00, 0x00] = .error .selectorSize
    ∧ decode [0x05, 0x02, 0x04, 0, 0, 0, 0] = .error .selectorSize := by decide
theorem test_reserved_lengths : decode [0x04, 0x00, 0x00, 0x02] = .error .length ∧ decode [0x06, 0x00] = .error .length
    ∧ decode [0x01, 0x00, 0x00, 0x00, 0x00, 0x00, 0x00, 0x01, 0x00, 0x02, 0xFF] = .error .length := by decide
/-- A packet whose count does not agree with its length is no packet: opcode `0x00` (the table's constraints). -/
theorem test_packet_constraints : decode (packetV7a ++ [0x00]) = .error .opcode := by decide +kernel
/-- The table's row selects by its leading bytes: V7a with a wrong vector is not selected. -/
theorem test_packet_row : rowSelects packetRow packetV7a = true ∧ packetRow.length = 126
    ∧ rowSelects packetRow (packetV7a.set 21 5) = false := by decide +kernel
/-- V8. -/
theorem test_decode_fields_v7c :
    decodeFields (packetV7c 0) = some (.e131DataPacket cid (name ++ zeros 60) 100 0 1 [255, 0, 128]) := by decide +kernel

/-! ### The written form (R86, R87) -/

theorem test_assemble_send_without_priority :
    assemble "SEND_MCAST u=1 data=[]" = some (.command 0 (.sendMcast 1 [] none)) := by decide +kernel
theorem test_assemble_tagged_destination :
    assemble "@2: SEND data=[0xFF] dest=Multicast u=63999" = some (.command 2 (.sendMcast 63999 [255] none)) := by
  decide +kernel
theorem test_assemble_rejects :
    assemble "SEND_MCAST u=1" = none ∧ assemble "MCAST_ADDR u=1 u=2" = none ∧ assemble "HALT" = none
    ∧ assemble "SEND_MCAST u=1 data=[256]" = none ∧ assemble "SET_MCAST_IF ipv4=10.0.0" = none := by decide +kernel
/-- The prefix is a word of its own (log entry 18). -/
theorem test_assemble_prefix :
    assemble "@1: TEARDOWN" = some (.command 1 .teardown) ∧ assemble "@1:TEARDOWN" = none := by decide +kernel
theorem test_assemble_construct :
    assemble "CONSTRUCT cid=000102030405060708090A0B0C0D0E0F name=\"Test\""
      = some (.construct 0 (some cid) (some name) none none) := by decide +kernel

/-! ### One step of each command -/

/-- P1, steps 1 and 2: what is handed to the TRANSPORT, and the counter after. -/
theorem test_send_mcast :
    ifNext (exec (.sendMcast 1 [255, 0, 128] none) { block with seq := [(1, 1)] }) (fun t => (t.toTransport, t.seq))
      = some ([.createHandle, .tx (.mcast 239 255 0 1) 5568 (packetV7c 1)], [(1, 2)]) := by decide +kernel
/-- V5: a counter of 255 goes into the packet, and wraps to 0 (R116). -/
theorem test_send_mcast_wraps :
    ifNext (exec (.sendMcast 1 [255, 0, 128] none) { block with seq := [(1, 255)] })
      (fun t => (t.pend.map (·.bytes), t.seq, t.rsp)) = some ([packetV7c 255], [(1, 0)], []) := by decide +kernel
/-- P1, step 3. -/
theorem test_send_ucast :
    ifNext (exec (.sendUcast host 2 [1] (some 150)) { block with seq := [(1, 2)] }) (fun t => (t.pend, t.seq))
      = some ([⟨0, .ucast host, 5568, packetP1, 2, 0⟩], [(1, 2), (2, 1)]) := by decide +kernel
/-- P3, step 6: a universe that 16 bits cannot hold. -/
theorem test_send_ucast_rejected :
    ifNext (exec (.sendUcast host 65536 [9] none) block) (fun t => (t.rsp, t.seq, t.pend))
      = some ([(0, .err (.encoding .universeNot16Bit))], [], []) := by decide +kernel
/-- V7a. -/
theorem test_build :
    ifNext (exec (.build 63999 (some []) (some cid) 255 [0x7F] (some 200)) State.reset) (·.rsp)
      = some [(0, .ok packetV7a)] := by decide +kernel
/-- V4, the first row: an empty payload is reported before everything else. -/
theorem test_build_rejected :
    ifNext (exec (.build 70000 none none 0 [] none) State.reset) (·.rsp)
      = some [(0, .err (.encoding .payloadEmpty))] := by decide +kernel
/-- P5, step 3. -/
theorem test_mcast_addr :
    ifNext (exec (.mcastAddr 513) State.reset) (·.rsp) = some [(0, .ok [0xEF, 0xFF, 0x02, 0x01])] := by decide +kernel
/-- V6: universes 0 and 64000 under the two policies. -/
theorem test_mcast_addr_out_of_range :
    ifNext (exec (.mcastAddr 0) State.reset) (·.rsp) = some [(0, .err (.encoding .universeOutOfRange))]
    ∧ ifNext (exec (.mcastAddr 64000) { State.reset with params := otherPolicies }) (·.rsp)
        = some [(0, .ok [0xEF, 0xFF, 0xFA, 0x00])] := by decide +kernel
/-- P5, step 1. -/
theorem test_set_mcast_if :
    ifNext (exec (.setMcastIf (.byIPv4 [192, 168, 1, 10])) State.reset) (fun t => (t.mcastIf, t.rsp))
      = some (some (.byIPv4 [192, 168, 1, 10]), [(0, .ok [])]) := by decide +kernel
/-- P5, step 2: no partial effect. -/
theorem test_set_mcast_if_unsupported :
    ifNext (exec (.setMcastIf (.byOther 7 [0])) { State.reset with mcastIf := some (.byIndex 3) })
      (fun t => (t.mcastIf, t.rsp, t.toTransport)) = some (some (.byIndex 3), [(0, .err .addressFamily)], [.createHandle]) := by
  decide +kernel
/-- P5, step 6. -/
theorem test_teardown :
    ifNext (exec .teardown State.reset) (fun t => (t.tornDown, t.rsp)) = some (true, [(0, .ok [])]) := by decide +kernel
/-- P5, step 7: a send after it. -/
theorem test_send_after_teardown :
    ifNext (exec (.sendMcast 300 [1, 2] none) { block with tornDown := true, seq := [(300, 1)] })
      (fun t => (t.rsp, t.seq, t.pend)) = some ([(0, .err (.badCommand .tornDown))], [(300, 1)], []) := by decide +kernel
/-- V9: opcode 0 answers `(4,1)`; the packet's first byte is that opcode. -/
theorem test_packet_as_command :
    ifNext (exec (.e131DataPacket cid (zeros 64) 200 255 63999 [0x7F]) block) (fun t => (t.rsp, t.seq))
      = some ([(0, .err (.badCommand .reservedEncoding))], []) := by decide +kernel
/-- P3, step 4: a failed resolution is reported, the counter stays advanced, the entry is gone. -/
theorem test_completion :
    ifNext (step { sending with inbox := [.txs 5 .resolveFail] }) (fun t => (t.rsp, t.seq, t.pend))
      = some ([(5, .err (.transmission .resolveFail))], [(1, 2)], [mcastEntry]) := by decide +kernel
/-- P4, schedule `I0 I1 C1 C0`: the later packet may leave first; a multicast one cannot fail to resolve (R85). -/
theorem test_completion_order :
    ifNext (step { sending with inbox := [.txs 3 .resolveFail, .txs 5 .ok, .txs 3 .ok] }) (fun t => (t.rsp, t.inbox))
      = some ([(5, .ok [])], [.txs 3 .resolveFail, .txs 3 .ok]) := by decide +kernel
/-- The reset event from a torn-down block, with an interface whose family is not supported. -/
def constructing : State :=
  { block with tornDown := true, inbox := [.construct 4 (some cid) none (some 6000) (some (.byOther 7 [0]))] }

/-- R170: an unsupported interface leaves `MCAST_IF` at `none` and is reported, and the rest of the reset stands. -/
theorem test_construct :
    ifNext (step constructing) (fun t => (t.name, t.port, t.mcastIf)) = some (none, 6000, none)
    ∧ ifNext (step constructing) (fun t => (t.tornDown, t.rsp)) = some (false, [(4, .err .addressFamily)]) := by
  decide +kernel
/-- The word of `TEARDOWN` placed after reset is the first to run. -/
theorem test_placed_word :
    decodeTableWord 8 0x06 = some .teardown
    ∧ ifNext (step (State.reset.withFetchWord 8 0x06)) (·.tornDown) = some true := by decide +kernel
/-- The leading bytes of `SEND_MCAST` with zeros after them: an empty payload, which the block answers. -/
theorem test_placed_send :
    decodeTableWord 32 0x01 = some (.sendMcast 0 [] none)
    ∧ ifNext (step (State.reset.withFetchWord 32 0x01)) (·.rsp) = some [(0, .err (.encoding .payloadEmpty))] := by
  decide +kernel

/-! ### Witnesses: for each statement with hypotheses, data that meets them -/

/-- Every constructor, with operands at the ends of their ranges. -/
theorem witness_DecodeOfEncode :
    (Instr.sendMcast (2 ^ 32 - 1) [] none).wellFormed = true
    ∧ (Instr.sendUcast (zeros 255) 0 [1] (some 255)).wellFormed = true
    ∧ (Instr.build 0 (some []) (some (zeros 255)) 255 [1] none).wellFormed = true
    ∧ (Instr.mcastAddr (2 ^ 32 - 1)).wellFormed = true ∧ (Instr.setMcastIf (.byOther 3 (zeros 255))).wellFormed = true
    ∧ (Instr.setMcastIf (.byOther 255 [])).wellFormed = true ∧ Instr.teardown.wellFormed = true
    ∧ (Instr.e131DataPacket cid (zeros 64) 255 255 65535 (zeros 512)).wellFormed = true := by decide +kernel

/-- A descriptor whose ignored priority byte is not `00`, and one that encodes to itself. -/
theorem witness_EncodeOfDecode :
    decode [0x01, 0x00, 0x55, 0x00, 0x00, 0x00, 0x00, 0x01, 0x00, 0x01, 0xFF] = .ok (.sendMcast 1 [255] none)
    ∧ decode [0x06] = .ok .teardown := by decide

/-- A reserved descriptor that is no packet, and a packet. -/
theorem witness_DecoderRefusesExactlyTheReserved :
    ReservedDescriptor [0x07] ∧ decode [0x07] = .error .opcode
    ∧ (Instr.e131DataPacket cid (zeros 64) 200 255 63999 [0x7F]).wellFormed = true
    ∧ encode (.e131DataPacket cid (zeros 64) 200 255 63999 [0x7F]) = packetV7a := by
  refine ⟨.inr (.inr (.inl (by decide))), by decide, by decide +kernel, by decide +kernel⟩

theorem witness_StepRunsTheDecodedInstruction :
    ({ block with inbox := [.cmd 0 [0x06]] } : State).nextInput = some (.cmd 0 [0x06], []) ∧ decode [0x06] = .ok .teardown
    ∧ ({ block with inbox := [.command 0 (.mcastAddr 4294967296)] } : State).nextInput
        = some (.command 0 (.mcastAddr 4294967296), []) := by decide +kernel

/-- A command that no descriptor spells: the universe 2^32 (R181) is answered as too large for 16 bits (R88). -/
theorem test_step_beyond_descriptors :
    ifNext (step { block with inbox := [.command 7 (.sendMcast 4294967296 [1] none)] }) (fun t => (t.rsp, t.seq, t.inbox))
      = some ([(7, .err (.encoding .universeNot16Bit))], [], []) := by decide +kernel

/-- Commands with a descriptor and without, and the last port, with nothing pending while others have. -/
theorem witness_AnyCommandCanBePresented :
    (Instr.build 4294967296 none (some (zeros 300)) 0 [1] none).isCommand = true
    ∧ (Instr.sendUcast (zeros 255) 1 [1] none).isCommand = true ∧ (Instr.sendUcast (zeros 256) 1 [1] none).isCommand = false
    ∧ (Instr.teardown).isCommand = true ∧ Instr.teardown.wellFormed = true
    ∧ 255 < sending.params.nports ∧ (∀ e ∈ sending.pend, e.caller ≠ 255) := by decide +kernel

/-- An idle block, one with a command behind a completion that must wait, and a pending entry that a status can answer. -/
theorem witness_StepTakesTheEarliestPossibleInput :
    block.nextInput = none
    ∧ ({ sending with inbox := [.txs 3 .resolveFail, .cmd 0 [0x06]] } : State).nextInput
        = some (.cmd 0 [0x06], [.txs 3 .resolveFail])
    ∧ (Input.txs 5 .resolveFail).enabled sending = true
    ∧ (sending.pend.Pairwise fun a b => a.caller < b.caller) ∧ ucastEntry ∈ sending.pend := by decide +kernel

theorem witness_PlacedWordRunsNext :
    decodeTableWord 8 0x06 = some .teardown ∧ 0 < State.reset.params.nports ∧ State.reset.busy 0 = false := by
  decide +kernel

theorem witness_ReservedDescriptorAnswered :
    ({ block with inbox := [.cmd 255 [0x00]] } : State).nextInput = some (.cmd 255 [0x00], [])
    ∧ ReservedDescriptor [0x00] := ⟨by decide +kernel, .inr (.inl (by decide))⟩

theorem witness_BuilderWritesTheLayout : cid.length = 16 ∧ (zeros 127).length = 126 + ([0x7F] : Bytes).length := by decide +kernel

/-- Accepted operands, and a cause for the command and for both sends. -/
theorem witness_BuildFailsOnlyByValidation :
    validate .default 1 (some name) (some cid) [1] 100 = none
    ∧ validate .default 1 (some name) (some cid) [] 100 = some .payloadEmpty
    ∧ block.params = .default ∧ block.tornDown = false ∧ block.name = some name ∧ block.cid = some cid := by decide +kernel

/-- Each cause at the edge of its condition (V4), and acceptance at the edges. -/
theorem witness_ValidationReportsTheFirstCause :
    validate .default 70000 none none [] 0 = some .payloadEmpty
    ∧ validate .default 1 none none (zeros 513) 0 = some .payloadTooLong
    ∧ validate .default 1 none none (zeros 512) 0 = some .cidMissing
    ∧ validate .default 1 none (some (zeros 15)) [1] 0 = some .cidMalformed
    ∧ validate .default 1 (some name) (some (zeros 17)) [1] 0 = some .cidMalformed
    ∧ validate .default 0 none (some cid) [1] 0 = some .nameMissing
    ∧ validate otherPolicies 65536 (some []) (some cid) [1] 255 = some .universeNot16Bit
    ∧ validate .default 0 (some []) (some cid) [1] 255 = some .universeOutOfRange
    ∧ validate .default 64000 (some []) (some cid) [1] 0 = some .universeOutOfRange
    ∧ validate otherPolicies 0 (some []) (some cid) [1] 201 = some .priorityOutOfRange
    ∧ validate .default 63999 (some []) (some cid) (zeros 512) 255 = none
    ∧ validate otherPolicies 65535 (some []) (some cid) [1] 200 = none := by decide +kernel

/-- Accepted operands at both ends of every range, under each policy. -/
theorem acceptable_edges :
    Acceptable .default 1 cid [0] 0 ∧ Acceptable .default 63999 cid (zeros 512) 255
    ∧ Acceptable otherPolicies 0 cid [0] 200 ∧ Acceptable otherPolicies 65535 cid (zeros 512) 0 := by
  refine ⟨⟨?_, ?_, ?_, ?_, ?_, ?_⟩, ⟨?_, ?_, ?_, ?_, ?_, ?_⟩, ⟨?_, ?_, ?_, ?_, ?_, ?_⟩, ⟨?_, ?_, ?_, ?_, ?_, ?_⟩⟩ <;>
    decide +kernel

theorem witness_PacketFieldsStandAtTheirOffsets :
    Params.default.wire = .e131 ∧ Acceptable .default 1 cid [0] 0 ∧ Acceptable .default 63999 cid (zeros 512) 255 :=
  ⟨rfl, acceptable_edges.1, acceptable_edges.2.1⟩

theorem witness_SourceFieldsInThePacket :
    build .default 63999 (some []) (some cid) 255 [0x7F] 200 = .ok packetV7a := by decide +kernel

theorem witness_LengthFieldsAgree :
    build .default 1 (some name) (some cid) 0 [255, 0, 128] 100 = .ok (packetV7c 0) := by decide +kernel

/-- A name that fills its field, and one that is cut. -/
theorem witness_BuiltPacketReadsBack :
    validate .default 1 (some (List.replicate 64 0x41)) (some cid) [1] 0 = none
    ∧ validate .default 1 (some (List.replicate 65 0x41)) (some cid) [1] 0 = none := by decide +kernel

theorem witness_BuildCommandAnswersThePacket :
    Acceptable State.reset.params 1 cid [0] ((none : Option Byte).getD 100)
    ∧ Acceptable State.reset.params 1 cid [0] ((some 0 : Option Byte).getD 100) :=
  ⟨⟨by decide, by decide, by decide, by decide, by decide, by decide⟩, acceptable_edges.1⟩

theorem witness_BuildCommandAnswersTheCause :
    validate State.reset.params 1 none none [1] ((none : Option Byte).getD 100) = some .cidMissing := by decide +kernel

/-- The block of the test vectors is ready to send. -/
theorem ready : ReadyToSend block 1 [255, 0, 128] none name cid :=
  ⟨rfl, rfl, rfl, ⟨by decide, by decide, by decide, by decide, by decide, by decide⟩⟩

theorem witness_SendMcastIssues : ∃ s univ pay prio name cid, ReadyToSend s univ pay prio name cid :=
  ⟨_, _, _, _, _, _, ready⟩

theorem witness_SendUcastIssues : ReadyToSend block 1 [255, 0, 128] none name cid := ready

theorem witness_RejectedSendChangesNothing :
    block.tornDown = false ∧ validate block.params 0 block.name block.cid [1] 100 = some .universeOutOfRange := by
  decide +kernel

/-- A pair of sends that passes, and a pair that is rejected. -/
theorem witness_PacketDoesNotDependOnDestination :
    (ifNext (exec (.sendMcast 1 [1] none) block) (·.seq) = some [(1, 1)]
      ∧ ifNext (exec (.sendUcast host 1 [1] none) block) (·.seq) = some [(1, 1)])
    ∧ (ifNext (exec (.sendMcast 1 [] none) block) (·.seq) = some []
      ∧ ifNext (exec (.sendUcast host 1 [] none) block) (·.seq) = some []) := by decide +kernel

theorem witness_DatagramsGoToTheConfiguredPort :
    (Instr.sendUcast host 1 [1] none).sendsOn 1
    ∧ ifNext (exec (.sendUcast host 1 [1] none) { block with port := 1 }) (fun t => t.pend.map (·.port)) = some [1]
    ∧ ifNext (exec (.sendUcast host 1 [] none) { block with port := 1 }) (fun t => t.pend.map (·.port)) = some [] :=
  ⟨rfl, by decide +kernel, by decide +kernel⟩

theorem witness_SendLeavesOtherCountersAlone :
    (Instr.sendMcast 1 [1] none).sendsOn 1
    ∧ ifNext (exec (.sendMcast 1 [1] none) { block with seq := [(2, 7)] }) (fun t => (t.seqRead 2, t.inDom 2))
        = some (7, true) ∧ (2 : Nat) ≠ 1 := ⟨rfl, by decide +kernel, by decide⟩

/-- Callers 0 and 1, universes 1 and 2, with a transmission of caller 3 pending; all four runs go on. -/
theorem witness_SendsOnDifferentUniversesCommute :
    (Instr.sendMcast 1 [1] none).sendsOn 1 ∧ (Instr.sendUcast host 2 [] none).sendsOn 2
    ∧ Memory.wf sending.seq = true ∧ (sending.pend.Pairwise fun a b => a.caller < b.caller)
    ∧ (∀ e ∈ sending.pend, e.caller ≠ 0 ∧ e.caller ≠ 1)
    ∧ ∃ s1 s12 s2 s21, exec (.sendMcast 1 [1] none) { sending with caller := 0 } = .next s1
        ∧ exec (.sendUcast host 2 [] none) { s1 with caller := 1 } = .next s12
        ∧ exec (.sendUcast host 2 [] none) { sending with caller := 1 } = .next s2
        ∧ exec (.sendMcast 1 [1] none) { s2 with caller := 0 } = .next s21 :=
  ⟨rfl, rfl, by decide, by decide, by decide, _, _, _, _, rfl, rfl, rfl, rfl⟩

theorem witness_SameUniverseSendsGetConsecutiveNumbers :
    (Instr.sendMcast 1 [255, 0, 128] none).sendsOn 1 ∧ (Instr.sendUcast host 1 [255, 0, 128] none).sendsOn 1
    ∧ (Instr.sendMcast 1 [255, 0, 128] none).passesIn block ∧ (Instr.sendUcast host 1 [255, 0, 128] none).passesIn block :=
  ⟨rfl, rfl, ⟨_, _, ready⟩, ⟨_, _, ready⟩⟩

theorem witness_SuccessiveSendsCountUpModulo256 :
    ∀ i ∈ [Instr.sendMcast 1 [255, 0, 128] none, .sendUcast host 1 [255, 0, 128] none],
      i.sendsOn 1 ∧ i.passesIn block := by
  intro i hi
  simp only [List.mem_cons, List.not_mem_nil, or_false] at hi
  rcases hi with rfl | rfl
  · exact ⟨rfl, _, _, ready⟩
  · exact ⟨rfl, _, _, ready⟩

/-- Both kinds of destination are pending. -/
theorem witness_CompletionTakesAnyEntryAndStatus :
    (sending.pend.Pairwise fun a b => a.caller < b.caller) ∧ mcastEntry ∈ sending.pend ∧ ucastEntry ∈ sending.pend
    ∧ ucastEntry.dest = .ucast host := by decide +kernel

theorem witness_NoCompletionWithoutAPendingEntry :
    ({ sending with inbox := [.txs 5 .resolveFail] } : State).nextInput = some (.txs 5 .resolveFail, []) := by
  decide +kernel

theorem witness_CompletionNeverMovesACounter :
    ({ sending with inbox := [.txs 3 .sendFail] } : State).nextInput = some (.txs 3 .sendFail, []) := by decide +kernel

/-- Universes where the clauses meet, under each policy. -/
theorem witness_McastAddrCommandAnswers :
    (65536 ≤ 65536) ∧ block.params.universePolicy = .reject ∧ otherPolicies.universePolicy = .pass
    ∧ validateUniverse .default 65536 = some .universeNot16Bit ∧ validateUniverse .default 65535 = some .universeOutOfRange
    ∧ validateUniverse .default 64000 = some .universeOutOfRange ∧ validateUniverse .default 0 = some .universeOutOfRange
    ∧ validateUniverse .default 1 = none ∧ validateUniverse .default 63999 = none
    ∧ validateUniverse otherPolicies 65535 = none ∧ validateUniverse otherPolicies 0 = none := by decide +kernel

theorem witness_McastAddressesAreDistinct :
    (65535 : Nat) < 65536 ∧ mcastAddr .default 65535 = mcastAddr .default 65535
    ∧ mcastAddr .default 0 ≠ mcastAddr .default 256 ∧ Params.default.wire = .e131 := by decide +kernel

theorem witness_SetMcastIfAnswers :
    ({ block with tornDown := true } : State).tornDown = true ∧ block.tornDown = false
    ∧ familyOf (.byIPv6 (zeros 16)) ∉ block.params.ifFamilies ∧ familyOf (.byIndex 0) ∈ block.params.ifFamilies := by
  decide +kernel

theorem witness_TeardownAnswers : block.pend = [] ∧ sending.pend ≠ [] := by decide +kernel

theorem witness_AfterTeardownOnlyPureCommandsWork :
    ({ block with tornDown := true } : State).tornDown = true ∧ (∃ u, (Instr.sendMcast 1 [1] none).sendsOn u) :=
  ⟨rfl, 1, rfl⟩

/-- A reset event that is taken, ahead of another input, with nothing pending and with something pending. -/
theorem witness_ConstructSetsEverything :
    ({ block with inbox := [.construct 1 (some cid) none (some 6000) (some (.byIndex 3)), .cmd 0 [0x06]] } : State).nextInput
      = some (.construct 1 (some cid) none (some 6000) (some (.byIndex 3)), [.cmd 0 [0x06]])
    ∧ ({ sending with inbox := [.construct 0 none none none none] } : State).nextInput
      = some (.construct 0 none none none none, [])
    ∧ block.pend = [] ∧ sending.pend ≠ [] ∧ familyOf (.byIndex 3) ∈ block.params.ifFamilies
    ∧ familyOf (.byOther 255 []) ∉ block.params.ifFamilies := by decide +kernel

theorem witness_ResetValues :
    ∃ s : State, s.pend = [] ∧ s.params = .default ∧ s.inbox = [] ∧ s ≠ State.reset :=
  ⟨{ block with seq := [(1, 7)], tornDown := true }, by decide +kernel⟩

/-- An error of each kind: of a command, of a completion, of a reserved descriptor. -/
theorem witness_StateAfterAnError :
    ifNext (exec (.sendMcast 1 [] none) block) (·.rsp) = some (block.rsp ++ [(0, .err (.encoding .payloadEmpty))])
    ∧ ({ sending with inbox := [.txs 3 .sendFail] } : State).nextInput = some (.txs 3 .sendFail, [])
    ∧ ({ block with inbox := [.cmd 0 [0xFF]] } : State).nextInput = some (.cmd 0 [0xFF], [])
    ∧ decode [0xFF] = .error .opcode := by decide +kernel

theorem witness_TransmitMessageReadsBack :
    (Dest.ucast (zeros 255)).bytes.length < 256 ∧ (Dest.mcast 239 255 0 1).bytes.length < 256
    ∧ (zeros 638).length ≤ 638 := by decide +kernel

/-- A next state of each shape: a send, a configuration, a teardown, a pure command. -/
theorem witness_FrameOfEveryInstruction :
    (∃ t, exec (.sendMcast 1 [1] none) block = .next t) ∧ (∃ t, exec (.setMcastIf (.byIndex 3)) block = .next t)
    ∧ (∃ t, exec .teardown block = .next t) ∧ (∃ t, exec (.mcastAddr 1) block = .next t)
    ∧ (∀ u, ¬ Instr.teardown.sendsOn u) := ⟨⟨_, rfl⟩, ⟨_, rfl⟩, ⟨_, rfl⟩, ⟨_, rfl⟩, fun _ h => h⟩

/-- A step that constructs, and one that sets the interface. -/
theorem witness_RegistersOverAStep :
    ifNext (step { block with inbox := [.construct 0 none none none none] }) (·.cid) = some none
    ∧ ifNext (step { block with inbox := [.cmd 0 [0x05, 0x00, 0x04, 0x00, 0x00, 0x00, 0x03]] }) (·.mcastIf)
        = some (some (.byIndex 3)) := by decide +kernel

/-- A step that advances a counter, and one that leaves all alone. -/
theorem witness_CountersOnlyMoveForward :
    ifNext (step { block with inbox := [.cmd 0 [0x01, 0, 0, 0, 0, 0, 0, 1, 0, 1, 9]] }) (·.seq) = some [(1, 1)]
    ∧ ifNext (step { block with inbox := [.cmd 0 [0x06]] }) (·.seq) = some [] := by decide +kernel

theorem witness_PureCommandsReadNoState :
    block.params = sending.params ∧ block.caller = sending.caller ∧ block ≠ sending := by decide +kernel

/-- Operands that an accepted `BUILD` without a priority meets. -/
theorem witness_OmittedPriorityIsOneHundred :
    validate block.params 1 (some name) (some cid) [255, 0, 128] 100 = none := by decide +kernel

/-- The last write that fits the buffer. -/
theorem witness_BufferWriteThenRead : 126 + ([1] : Bytes).length ≤ (zeros 127).length := by decide +kernel

theorem witness_CounterWriteThenRead :
    (65535 : Nat) < 65536 ∧ Memory.wf sending.seq = true ∧ (2 : Nat) ≠ 1 := by decide

/-- The state with two transmissions pending meets the invariant. -/
theorem sending_inv : sending.Inv where
  counters := by decide
  callers := by decide
  entries := by
    intro e he
    have hs : e = mcastEntry ∨ e = ucastEntry := by simpa [sending] using he
    rcases hs with rfl | rfl
    · exact ⟨by decide, rfl, by decide +kernel, by decide +kernel, by decide +kernel, by decide +kernel, by decide,
        by decide, .inl rfl⟩
    · exact ⟨by decide, rfl, by decide +kernel, by decide +kernel, by decide +kernel, by decide +kernel, by decide,
        by decide, .inr ⟨_, rfl⟩⟩
  quiet := by decide
  inRange := by
    intro _ u hu
    have : 1 = u := by
      by_contra h
      simp [State.inDom, sending, Memory.lookup, h] at hu
    omega
  interface := by intro sel h; cases h

theorem sending_numbered : sending.Numbered := by
  intro u
  by_cases h : 1 = u
  · subst h; decide +kernel
  · have : issuedSeqs u sending.hist = [] := by simp [issuedSeqs, sending, h]
    rw [this]
    simp [State.seqRead, State.inDom, sending, Memory.lookup, h, sequenceNumbers]

theorem sending_recorded : sending.Recorded where
  answered := by decide +kernel
  transmitted := by decide +kernel
  conserved := by
    intro c
    by_cases h3 : 3 = c <;> by_cases h5 : 5 = c <;>
      simp [issuedBy, completedFor, pendingFor, sending, mcastEntry, ucastEntry, h3, h5]

/-- A state that meets all three invariants and takes a step that changes it. -/
def answering : State := { sending with inbox := [.txs 5 .ok] }

theorem answering_steps : ∃ t, step answering = .next t ∧ t.pend = [mcastEntry] := ⟨_, rfl, by decide +kernel⟩

theorem witness_StepKeepsInv : answering.Inv ∧ ∃ t, step answering = .next t :=
  ⟨⟨sending_inv.counters, sending_inv.callers,
    fun e he =>
      have h := sending_inv.entries e he
      ⟨h.portExists, h.udpPort, h.shortest, h.longest, h.seqByte, h.univBytes, h.univFits, h.univSeen,
        h.dest⟩,
    sending_inv.quiet, sending_inv.inRange, sending_inv.interface⟩, answering_steps.imp fun _ h => h.1⟩

theorem witness_StepKeepsNumbering : answering.Numbered ∧ ∃ t, step answering = .next t :=
  ⟨sending_numbered, answering_steps.imp fun _ h => h.1⟩

theorem witness_StepKeepsTheRecords : answering.Recorded ∧ ∃ t, step answering = .next t :=
  ⟨⟨sending_recorded.answered, sending_recorded.transmitted, sending_recorded.conserved⟩,
    answering_steps.imp fun _ h => h.1⟩

theorem witness_EqualNumbersAre256Apart :
    sending.Numbered ∧ (issuedSeqs 1 sending.hist)[1]? = some 1 ∧ (256 : Nat) ≤ 256 :=
  ⟨sending_numbered, by decide +kernel, by decide⟩

/-- A recorded state with something pending, and one with nothing. -/
theorem witness_NothingPendingWhenAllAnswered :
    sending.Recorded ∧ sending.pend ≠ [] ∧ State.reset.Recorded ∧ State.reset.pend = [] :=
  ⟨sending_recorded, by decide +kernel, ⟨rfl, rfl, fun _ => rfl⟩, rfl⟩

end Sys2Proof.Tests
end

section
/-! PROOFS. The family `00_scope`: which input a step takes, what it then runs, and the counter file. -/

namespace Sys2Proof.Machine

/-! ### One step, by what is taken -/

/-- With no input that can be taken the block waits (R14). -/
theorem step_of_nextInput_none {s : State} (h : s.nextInput = none) : step s = .next s := by
  simp [step, h]

theorem step_of_nextInput {s : State} {x : Input} {rest : List Input} (h : s.nextInput = some (x, rest)) :
    step s = serve x (s.withInbox rest) := by
  simp [step, h]

/-- A step that takes an instruction, in either form, runs it for the port it came in on (R76, R113). -/
theorem step_of_presents {s : State} {c : Nat} {i : Instr} {x : Input} {rest : List Input}
    (h : s.nextInput = some (x, rest)) (hx : x.Presents c i) :
    step s = exec i ((s.withInbox rest).serving c) := by
  rw [step_of_nextInput h, serve_of_presents hx]

/-! ### When an input can be taken -/

theorem pendFind_eq_none_iff {c : Nat} {l : List PendEntry} :
    pendFind c l = none ↔ ∀ e ∈ l, e.caller ≠ c := by
  refine ⟨pendFind_none, fun h => Option.eq_none_iff_forall_ne_some.mpr fun e he => ?_⟩
  obtain ⟨hmem, hcaller⟩ := pendFind_some he
  exact h e hmem hcaller

/-- `ResolveFail` is the one status that not every destination admits (R85, R118). -/
theorem TxStatus.answers_iff {st : TxStatus} {dest : Dest} :
    st.answers dest = true ↔ (st = .resolveFail → ∃ host, dest = .ucast host) := by
  cases st with
  | ok | sendFail => simp [TxStatus.answers]
  | resolveFail => cases dest <;> simp [TxStatus.answers]

theorem enabled_cmd_iff {s : State} {c : Nat} {d : Bytes} :
    (Input.cmd c d).enabled s = true ↔ c < s.params.nports ∧ ∀ e ∈ s.pend, e.caller ≠ c := by
  rw [← pendFind_eq_none_iff]
  exact State.accepts_iff

theorem enabled_command_iff {s : State} {c : Nat} {i : Instr} :
    (Input.command c i).enabled s = true ↔
      (c < s.params.nports ∧ ∀ e ∈ s.pend, e.caller ≠ c) ∧ i.isCommand = true := by
  rw [← pendFind_eq_none_iff, ← State.accepts_iff]
  exact Bool.and_eq_true_iff

theorem enabled_txs_iff {s : State} {c : Nat} {st : TxStatus} :
    (Input.txs c st).enabled s = true ↔ ∃ e, pendFind c s.pend = some e ∧ st.answers e.dest = true := by
  simp only [Input.enabled]
  cases pendFind c s.pend <;> simp

/-- A completion is taken only for a pending entry of its caller. -/
theorem pending_of_enabled_txs {s : State} {c : Nat} {st : TxStatus} (h : (Input.txs c st).enabled s = true) :
    ∃ e ∈ s.pend, e.caller = c ∧ (st = .resolveFail → ∃ host, e.dest = .ucast host) := by
  obtain ⟨e, hfind, hans⟩ := enabled_txs_iff.mp h
  obtain ⟨hmem, hcaller⟩ := pendFind_some hfind
  exact ⟨e, hmem, hcaller, TxStatus.answers_iff.mp hans⟩

/-- In canonical order every pending entry can be completed with every status that its destination admits. -/
theorem enabled_txs_of_mem {s : State} (hs : s.pend.Pairwise fun a b => a.caller < b.caller) {e : PendEntry}
    (he : e ∈ s.pend) {st : TxStatus} (hst : st = .resolveFail → ∃ host, e.dest = .ucast host) :
    (Input.txs e.caller st).enabled s = true :=
  enabled_txs_iff.mpr ⟨e, pendFind_of_mem hs he, TxStatus.answers_iff.mpr hst⟩

/-! ### The statements -/

/-- Settles O7: `takeFirst` takes the earliest that can be taken, and each kind of input has its own condition. -/
theorem stepTakesTheEarliestPossibleInput : Obligations.StepTakesTheEarliestPossibleInput := by
  intro s
  refine ⟨fun h => ⟨takeFirst_none h, step_of_nextInput_none h⟩, fun x rest h => takeFirst_some h, ?_⟩
  exact ⟨fun _ _ => enabled_cmd_iff, fun _ _ => enabled_command_iff, fun _ _ => pending_of_enabled_txs,
    fun hs _ he _ => enabled_txs_of_mem hs he, fun _ _ _ _ _ => rfl⟩

/-- Settles O51, by the laws of the counter file. -/
theorem counterWriteThenRead : Obligations.CounterWriteThenRead := by
  intro s u b
  refine ⟨seqRead_seqWrite_self s u b, inDom_seqWrite_self s u b, fun v hv => ?_, fun hu => wf_insert hu b⟩
  exact ⟨seqRead_seqWrite_other s u v b hv, inDom_seqWrite_other s u v b hv⟩

/-- Settles O6: both forms of the input present the instruction. -/
theorem stepRunsTheDecodedInstruction : Obligations.StepRunsTheDecodedInstruction := by
  intro s c x rest i hnext hx
  exact step_of_presents hnext hx.symm

end Sys2Proof.Machine
end

section
/-! PROOFS. The family `10_state`: the packet that `build` writes is the layout of R50. -/

namespace Sys2Proof.Machine

/-- An integer written at the end of what has been written extends it by its big-endian image. -/
theorem memWrite_append {addr : Nat} {pre : Bytes} (hp : pre.length = addr) (n v : Nat) (rest : Bytes) :
    memWrite addr n v (pre ++ rest) = (pre ++ beImage n v) ++ rest.drop n := by
  rw [memWrite, memWriteBytes_append hp, beImage_length]

theorem writeRoot_eq (w : WireConstants) (l : Nat) {cid : Bytes} (hc : cid.length = 16) (out : Bytes) :
    writeRoot w l cid out = rootLayout w l cid ++ out.drop 38 := by
  have hstart : out = [] ++ out := rfl
  rw [hstart]
  simp (disch := simp) only [writeRoot, memWrite_append, memWriteBytes_append]
  simp [rootLayout, rootFlagsLength, beImage_two, beImage_four, hc]

theorem writeFraming_append (w : WireConstants) (l : Nat) (name : Bytes) (prio seq : Byte) (univ : Nat) {pre : Bytes}
    (hp : pre.length = 38) (rest : Bytes) :
    writeFraming w l name prio seq univ (pre ++ rest) =
      (pre ++ framingLayout w l (nameField name) prio seq univ) ++ rest.drop 77 := by
  simp (disch := simp [hp]) only [writeFraming, memWrite_append, memWriteBytes_append]
  simp [framingLayout, framingFlagsLength, beImage_two, beImage_four, beImage_one]

theorem writeDmp_append (w : WireConstants) (pay : Bytes) {pre : Bytes} (hp : pre.length = 115) (rest : Bytes) :
    writeDmp w pay.length pay (pre ++ rest) =
      (pre ++ (dmpLayout w pay.length ++ pay)) ++ rest.drop (11 + pay.length) := by
  simp (disch := simp [hp]) only [writeDmp, memWrite_append, memWriteBytes_append]
  simp [dmpLayout, dmpFlagsLength, beImage_two, beImage_one]

/-- The three writes of `build` leave no byte of the buffer as it was: they write the layout of R50 (R32, R90). -/
theorem writePacket_eq_packetLayout (w : WireConstants) (name : Bytes) {cid : Bytes} (hc : cid.length = 16) (seq : Byte)
    (univ : Nat) (pay : Bytes) (prio : Byte) {out : Bytes} (hout : out.length = 126 + pay.length) :
    writePacket w name cid seq univ pay prio out = packetLayout w cid (nameField name) prio seq univ pay := by
  have hr := rootLayout_length w pay.length hc
  have hf := framingLayout_length w pay.length (nameField_length name) prio seq univ
  simp only [writePacket]
  rw [writeRoot_eq w pay.length hc, writeFraming_append w _ name prio seq univ hr,
    writeDmp_append w pay (by simp [hr, hf])]
  simp [packetLayout]
  omega

/-- On acceptable operands `build` answers the packet of R50. -/
theorem build_eq_packetOf {p : Params} {univ : Nat} {name cid pay : Bytes} {prio : Byte}
    (h : Acceptable p univ cid pay prio) (seq : Byte) :
    build p univ (some name) (some cid) seq pay prio = .ok (packetOf p univ name cid seq pay prio) := by
  rw [build_of_acceptable h, packetOf,
    writePacket_eq_packetLayout p.wire name h.cidFits seq univ pay prio (zeros_length _)]

/-- What a successful `build` answers is the packet of R50 on acceptable operands. -/
theorem build_ok_packetOf {p : Params} {univ : Nat} {name cid : Option Bytes} {seq : Byte} {pay : Bytes} {prio : Byte}
    {bytes : Bytes} (h : build p univ name cid seq pay prio = .ok bytes) :
    ∃ n c, name = some n ∧ cid = some c ∧ Acceptable p univ c pay prio ∧ bytes = packetOf p univ n c seq pay prio := by
  obtain ⟨n, c, rfl, rfl, ha, -⟩ := build_ok h
  rw [build_eq_packetOf ha, Except.ok.injEq] at h
  exact ⟨n, c, rfl, rfl, ha, h.symm⟩

/-! What a packet says of its send. -/

section
variable (w : WireConstants) {cid : Bytes} (hc : cid.length = 16) (name : Bytes) (prio seq : Byte) (univ : Nat)
  (pay : Bytes)
include hc

/-- The last seven bytes of the framing layer: the priority, the sequence number and the universe stand there. -/
theorem byteAt_packetLayout_framingTail {i : Nat} (h : 108 ≤ i) (h' : i < 115) :
    byteAt (packetLayout w cid (nameField name) prio seq univ pay) i =
      byteAt [prio, 0#8, 0#8, seq, 0#8, BitVec.ofNat 8 (univ / 256), BitVec.ofNat 8 univ] (i - 108) := by
  rw [byteAt_framing w hc (nameField_length name) prio seq univ pay (by omega) h', framingLayout,
    byteAt_append_right (by simp; omega)]
  congr 1
  simp; omega

theorem byteAt_packetLayout_seq : byteAt (packetLayout w cid (nameField name) prio seq univ pay) 111 = seq :=
  byteAt_packetLayout_framingTail w hc name prio seq univ pay (by omega) (by omega)

theorem readBe16_packetLayout_univ (hu : univ < 65536) :
    readBe16 (byteAt (packetLayout w cid (nameField name) prio seq univ pay) 113)
      (byteAt (packetLayout w cid (nameField name) prio seq univ pay) 114) = univ := by
  rw [byteAt_packetLayout_framingTail w hc name prio seq univ pay (by omega) (by omega),
    byteAt_packetLayout_framingTail w hc name prio seq univ pay (by omega) (by omega)]
  exact readBe16_be16 hu

end

end Sys2Proof.Machine
end

section
/-! PROOFS. The family `10_state`: what each instruction answers, what it leaves alone, and what every step keeps. -/

namespace Sys2Proof.Machine

/-- `build` answers the cause that `validate` finds (R96). -/
theorem build_of_cause {p : Params} {univ : Nat} {name cid : Option Bytes} {pay : Bytes} {prio : Byte}
    {cause : EncodingCause} (h : validate p univ name cid pay prio = some cause) (seq : Byte) :
    build p univ name cid seq pay prio = .error cause := by
  simp [build, h]

/-! ### Each instruction, case by case -/

/-! An issue step, case by case (R113). -/

section
variable {s : State} {univ : Nat} {pay : Bytes} {prio : Option Byte}

theorem issue_of_tornDown (h : s.tornDown = true) (cmd : Instr) (dest : Dest) :
    issue cmd univ pay prio dest s = s.reject (some cmd) (.badCommand .tornDown) := by
  simp [issue, h]

theorem issue_of_error {cause : EncodingCause} (hup : s.tornDown = false)
    (hb : build s.params univ s.name s.cid (s.seqRead univ) pay (priorityOf prio) = .error cause) (cmd : Instr)
    (dest : Dest) : issue cmd univ pay prio dest s = s.reject (some cmd) (.encoding cause) := by
  simp [issue, hup, hb]

theorem issue_of_ok {bytes : Bytes} (hup : s.tornDown = false)
    (hb : build s.params univ s.name s.cid (s.seqRead univ) pay (priorityOf prio) = .ok bytes) (cmd : Instr)
    (dest : Dest) : issue cmd univ pay prio dest s = s.queueSend cmd univ dest bytes := by
  simp [issue, hup, hb]

end

/-! The two pure commands, case by case (R95, R114). -/

section
variable {s : State}

theorem exec_build_of_ok {univ : Nat} {name cid : Option Bytes} {seq : Byte} {pay : Bytes} {prio : Option Byte}
    {bytes : Bytes} (hb : build s.params univ name cid seq pay (priorityOf prio) = .ok bytes) :
    exec (.build univ name cid seq pay prio) s = .next ((s.record (.built s.caller bytes)).respond (.ok bytes)) := by
  simp [exec, execBuild, hb]

theorem exec_build_of_error {univ : Nat} {name cid : Option Bytes} {seq : Byte} {pay : Bytes} {prio : Option Byte}
    {cause : EncodingCause} (hb : build s.params univ name cid seq pay (priorityOf prio) = .error cause) :
    exec (.build univ name cid seq pay prio) s =
      .next (s.reject (some (.build univ name cid seq pay prio)) (.encoding cause)) := by
  simp [exec, execBuild, hb]

theorem exec_mcastAddr_of_none {univ : Nat} (hv : validateUniverse s.params univ = none) :
    exec (.mcastAddr univ) s = .next ((s.record (.built s.caller (mcastAddr s.params univ).bytes)).respond
      (.ok (mcastAddr s.params univ).bytes)) := by
  simp [exec, execMcastAddr, hv]

theorem exec_mcastAddr_of_some {univ : Nat} {cause : EncodingCause}
    (hv : validateUniverse s.params univ = some cause) :
    exec (.mcastAddr univ) s = .next (s.reject (some (.mcastAddr univ)) (.encoding cause)) := by
  simp [exec, execMcastAddr, hv]

end

/-! `SET_MCAST_IF`, case by case (R130). -/

section
variable {s : State} {sel : IfSelector} (hup : s.tornDown = false)
include hup

theorem execSetMcastIf_of_supported (hf : familyOf sel ∈ s.params.ifFamilies) :
    execSetMcastIf sel s = .next ((((s.tell (.useInterface sel)).setIf (some sel)).record
      (.configured s.caller sel none)).respond (.ok [])) := by
  simp [execSetMcastIf, hup, hf]

theorem execSetMcastIf_of_unsupported (hf : familyOf sel ∉ s.params.ifFamilies) :
    execSetMcastIf sel s =
      .next ((s.record (.configured s.caller sel (some .addressFamily))).respond (.err .addressFamily)) := by
  simp [execSetMcastIf, hup, hf]

end

theorem execSetMcastIf_of_tornDown {s : State} (h : s.tornDown = true) (sel : IfSelector) :
    execSetMcastIf sel s = .next (s.reject (some (.setMcastIf sel)) (.badCommand .tornDown)) := by
  simp [execSetMcastIf, h]

/-! `TEARDOWN`, case by case (R131). -/

theorem execTeardown_of_idle {s : State} (h : s.pend = []) :
    execTeardown s = .next (((s.tearDown.tell .releaseHandle).record (.tornDown s.caller)).respond (.ok [])) := by
  simp [execTeardown, h]

theorem execTeardown_of_pending {s : State} (h : s.pend ≠ []) : execTeardown s = .refused .teardownWithPending := by
  simp [execTeardown, h]

/-! `CONSTRUCT`, case by case (R170, R173). -/

section
variable {s : State} (c : Nat) (cid name : Option Bytes) (port : Option (BitVec 16))

theorem construct_of_none (h : s.pend = []) :
    construct c cid name port none s = .next (s.constructed c cid name port) := by
  simp [construct, h]

theorem construct_of_some (h : s.pend = []) (sel : IfSelector) :
    construct c cid name port (some sel) s = execSetMcastIf sel (s.constructed c cid name port) := by
  simp [construct, h]

theorem construct_of_pending (h : s.pend ≠ []) (iface : Option IfSelector) :
    construct c cid name port iface s = .refused .constructWithPending := by
  simp [construct, h]

end

/-- What `CONSTRUCT` answers: the new block, or that block after its `SET_MCAST_IF`. -/
theorem construct_cases {c : Nat} {cid name : Option Bytes} {port : Option (BitVec 16)} {iface : Option IfSelector}
    {s t : State} (h : construct c cid name port iface s = .next t) :
    t = s.constructed c cid name port
    ∨ ∃ sel, exec (.setMcastIf sel) (s.constructed c cid name port) = .next t := by
  unfold construct at h
  split at h
  · cases iface with
    | none => cases h; exact .inl rfl
    | some sel => exact .inr ⟨sel, h⟩
  · cases h

/-! ### The frame of an instruction -/

/-- Neither an issue step nor a completion: the event of a command that is answered in its own step (R19). -/
def Event.AtOnce : Event → Prop
  | .issued .. | .completed .. => False
  | .rejected .. | .built .. | .configured .. | .tornDown .. => True

/-- `t` is `s` after a command that its own step answered, with the event `e`: no counter and nothing pending has moved,
no datagram has gone out, and the response is the one that goes with the event. -/
structure Answered (e : Event) (s t : State) : Prop where
  atOnce    : e.AtOnce
  seq       : t.seq = s.seq
  pend      : t.pend = s.pend
  hist      : t.hist = s.hist ++ [e]
  rsp       : t.rsp = s.rsp ++ e.response.toList
  datagrams : t.toTransport.filterMap TransportMsg.datagram = s.toTransport.filterMap TransportMsg.datagram

theorem answered_reject (cmd : Option Instr) (e : Error) (s : State) :
    Answered (.rejected s.caller cmd e) s (s.reject cmd e) :=
  ⟨trivial, rfl, rfl, rfl, rfl, rfl⟩

/-- An instruction is answered in its own step, or it is a send that queues its packet (R113). -/
theorem exec_answered_or_queued {i : Instr} {s t : State} (h : exec i s = .next t) :
    (∃ e, Answered e s t) ∨ ∃ univ dest bytes, i.sendsOn univ ∧ t = s.queueSend i univ dest bytes := by
  rcases exec_cases h with ⟨cmd, e, rfl⟩ | ⟨univ, pay, prio, dest, bytes, hi, -, -, -, rfl⟩ | ⟨r, rfl⟩
    | ⟨sel, -, -, -, rfl⟩ | ⟨sel, rfl⟩ | ⟨-, -, rfl⟩
  · exact .inl ⟨_, answered_reject cmd e s⟩
  · exact .inr ⟨univ, dest, bytes, hi, rfl⟩
  · exact .inl ⟨.built s.caller r, trivial, rfl, rfl, rfl, rfl, rfl⟩
  · exact .inl ⟨.configured s.caller sel none, trivial, rfl, rfl, rfl, rfl, by simp [TransportMsg.datagram]⟩
  · exact .inl ⟨.configured s.caller sel (some .addressFamily), trivial, rfl, rfl, rfl, rfl, rfl⟩
  · exact .inl ⟨.tornDown s.caller, trivial, rfl, rfl, rfl, rfl, by simp [TransportMsg.datagram]⟩

/-- An instruction is a send on one universe at most. -/
theorem sendsOn_unique {i : Instr} {u v : Nat} (hu : i.sendsOn u) (hv : i.sendsOn v) : u = v := by
  cases i with
  | sendMcast | sendUcast => exact hu.symm.trans hv
  | build | mcastAddr | setMcastIf | teardown | e131DataPacket => exact hu.elim

section
variable {i : Instr} {s t : State} (h : exec i s = .next t)
include h

/-- What no instruction changes. -/
theorem exec_fixed : t.cid = s.cid ∧ t.name = s.name ∧ t.port = s.port ∧ t.params = s.params ∧ t.inbox = s.inbox
    ∧ t.caller = s.caller := by
  rcases exec_cases h with ⟨_, _, rfl⟩ | ⟨_, _, _, _, _, -, -, -, -, rfl⟩ | ⟨_, rfl⟩ | ⟨_, -, -, -, rfl⟩ | ⟨_, rfl⟩
    | ⟨-, -, rfl⟩ <;> exact ⟨rfl, rfl, rfl, rfl, rfl, rfl⟩

theorem exec_mcastIf : t.mcastIf = s.mcastIf ∨ ∃ sel, i = .setMcastIf sel ∧ t.mcastIf = some sel := by
  rcases exec_cases h with ⟨_, _, rfl⟩ | ⟨_, _, _, _, _, -, -, -, -, rfl⟩ | ⟨_, rfl⟩ | ⟨sel, hi, -, -, rfl⟩ | ⟨_, rfl⟩
    | ⟨-, -, rfl⟩
  · exact .inl rfl
  · exact .inl rfl
  · exact .inl rfl
  · exact .inr ⟨sel, hi, rfl⟩
  · exact .inl rfl
  · exact .inl rfl

theorem exec_tornDown : t.tornDown = s.tornDown ∨ i = .teardown ∧ t.tornDown = true := by
  rcases exec_cases h with ⟨_, _, rfl⟩ | ⟨_, _, _, _, _, -, -, -, -, rfl⟩ | ⟨_, rfl⟩ | ⟨_, -, -, -, rfl⟩ | ⟨_, rfl⟩
    | ⟨hi, -, rfl⟩
  · exact .inl rfl
  · exact .inl rfl
  · exact .inl rfl
  · exact .inl rfl
  · exact .inl rfl
  · exact .inr ⟨hi, rfl⟩

/-- The records only grow. -/
theorem exec_records : s.hist <+: t.hist ∧ s.rsp <+: t.rsp ∧ s.toTransport <+: t.toTransport := by
  rcases exec_cases h with ⟨_, _, rfl⟩ | ⟨_, _, _, _, _, -, -, -, -, rfl⟩ | ⟨_, rfl⟩ | ⟨_, -, -, -, rfl⟩ | ⟨_, rfl⟩
    | ⟨-, -, rfl⟩ <;> simp

theorem exec_of_not_send (hi : ∀ u, ¬ i.sendsOn u) : t.seq = s.seq ∧ t.pend = s.pend
    ∧ t.toTransport.filterMap TransportMsg.datagram = s.toTransport.filterMap TransportMsg.datagram := by
  rcases exec_answered_or_queued h with ⟨e, ha⟩ | ⟨u, -, -, hu, -⟩
  · exact ⟨ha.seq, ha.pend, ha.datagrams⟩
  · exact absurd hu (hi u)

/-- A send moves no counter but that of its universe (R119). -/
theorem exec_counters_other {u v : Nat} (hi : i.sendsOn u) (hv : v ≠ u) :
    t.seqRead v = s.seqRead v ∧ t.inDom v = s.inDom v := by
  rcases exec_answered_or_queued h with ⟨e, ha⟩ | ⟨w, dest, bytes, hw, rfl⟩
  · exact ⟨seqRead_congr ha.seq v, inDom_congr ha.seq v⟩
  · obtain rfl := sendsOn_unique hi hw
    exact ⟨State.queueSend_seqRead_other _ _ _ _ _ hv, State.queueSend_inDom_other _ _ _ _ _ hv⟩

end

/-- An issue step leaves the counters alone, or its operands pass and it queues its packet (R113, R172 item 2). -/
theorem issue_seq_or_ready (cmd : Instr) (univ : Nat) (pay : Bytes) (prio : Option Byte) (dest : Dest) (s : State) :
    (issue cmd univ pay prio dest s).seq = s.seq
    ∨ (∃ name cid, ReadyToSend s univ pay prio name cid)
      ∧ ∃ bytes, issue cmd univ pay prio dest s = s.queueSend cmd univ dest bytes := by
  rcases issue_cases cmd univ pay prio dest s with ⟨e, he⟩ | ⟨bytes, hup, hb, hq⟩
  · rw [he]
    exact .inl rfl
  · obtain ⟨n, c, hname, hcid, ha, -⟩ := build_ok hb
    exact .inr ⟨⟨n, c, hup, hname, hcid, ha⟩, bytes, hq⟩

/-- A send either leaves the counters alone, or passes and queues its packet. -/
theorem exec_send {i : Instr} {u : Nat} {s t : State} (hi : i.sendsOn u) (h : exec i s = .next t) :
    t.seq = s.seq ∨ i.passesIn s ∧ ∃ dest bytes, t = s.queueSend i u dest bytes := by
  cases i with
  | sendMcast univ pay prio =>
    subst hi; cases h
    exact (issue_seq_or_ready ..).imp_right fun ⟨hpass, bytes, hq⟩ => ⟨hpass, mcastAddr s.params univ, bytes, hq⟩
  | sendUcast host univ pay prio =>
    subst hi; cases h
    exact (issue_seq_or_ready ..).imp_right fun ⟨hpass, bytes, hq⟩ => ⟨hpass, .ucast host, bytes, hq⟩
  | build | mcastAddr | setMcastIf | teardown | e131DataPacket => exact hi.elim

/-- Whether a send passes does not depend on the inputs to come or on the port in service. -/
theorem passesIn_of_serving {i : Instr} {s : State} {rest : List Input} {c : Nat}
    (h : i.passesIn ((s.withInbox rest).serving c)) : i.passesIn s := by
  cases i with
  | sendMcast | sendUcast =>
    obtain ⟨n, cid, hup, hname, hcid, ha⟩ := h
    exact ⟨n, cid, hup, hname, hcid, ha⟩
  | build | mcastAddr | setMcastIf | teardown | e131DataPacket => exact h.elim

/-! ### What every step keeps -/

/-- The port in service may send: it exists and has nothing pending. -/
def State.MaySend (s : State) : Prop := s.caller < s.params.nports ∧ pendFind s.caller s.pend = none

/-- `P` survives each of the changes a step is made of, so every step keeps it (`Kept.step`). -/
structure Kept (P : State → Prop) : Prop where
  inbox      : ∀ {s} rest, P s → P (s.withInbox rest)
  serving    : ∀ {s} c, P s → P (s.serving c)
  runs       : ∀ {i s t}, P s → (∀ u, i.sendsOn u → s.MaySend) → exec i s = .next t → P t
  completes  : ∀ {s e} st, P s → pendFind e.caller s.pend = some e → P (complete e st s)
  constructs : ∀ (s : State) c cid name port, P (s.constructed c cid name port)

theorem Kept.step {P : State → Prop} (k : Kept P) {s t : State} (hs : P s) (h : step s = .next t) : P t := by
  rcases step_cases h with ⟨-, rfl⟩ | ⟨x, rest, hn, hx⟩
  · exact hs
  have hrest := k.inbox rest hs
  rcases hx with ⟨c, d, r, -, -, rfl⟩ | ⟨c, i, hp, hi⟩ | ⟨c, st, e, -, he, rfl, rfl⟩ | ⟨c, cid, name, port, iface, -, hc⟩
  · -- a reserved descriptor gets the answer of the packet's row (R82)
    exact k.runs (i := .e131DataPacket [] [] 0 0 0 []) (k.serving c hrest) (fun _ hu => hu.elim) rfl
  · have hidle : c < s.params.nports ∧ pendFind c s.pend = none := idle_of_presents hn hp
    exact k.runs (k.serving c hrest) (fun _ _ => hidle) hi
  · exact k.completes st hrest he
  · rcases construct_cases hc with rfl | ⟨sel, hi⟩
    · exact k.constructs _ c cid name port
    · exact k.runs (i := .setMcastIf sel) (k.constructs _ c cid name port) (fun _ hu => hu.elim) hi

end Sys2Proof.Machine
end

section
/-! PROOFS. The family `10_state`: the three invariants of a run. -/

namespace Sys2Proof.Machine

/-! ### The invariant of the state -/

/-- Soundness of an entry outlives every change but one of the port register, of the parameters, or one that takes its
universe out of `dom(SEQ)`. -/
theorem PendEntry.Sound.mono {s t : State} {e : PendEntry} (h : e.Sound s) (hparams : t.params = s.params)
    (hport : t.port = s.port) (hdom : s.inDom e.univ = true → t.inDom e.univ = true) : e.Sound t where
  portExists := hparams ▸ h.portExists
  udpPort := hport ▸ h.udpPort
  shortest := h.shortest
  longest := h.longest
  seqByte := h.seqByte
  univBytes := h.univBytes
  univFits := h.univFits
  univSeen := hdom h.univSeen
  dest := hparams ▸ h.dest

theorem State.Inv.of_sameBlock {s t : State} (h : s.Inv) (b : SameBlock s t) : t.Inv where
  counters := b.seq ▸ h.counters
  callers := b.pend ▸ h.callers
  entries e he := (h.entries e (b.pend ▸ he)).mono b.params b.port fun hu => (inDom_congr b.seq _).trans hu
  quiet hd := b.pend ▸ h.quiet (b.tornDown ▸ hd)
  inRange hp u hu := h.inRange (b.params ▸ hp) u ((inDom_congr b.seq u).symm.trans hu)
  interface sel hsel := b.params ▸ h.interface sel (b.mcastIf ▸ hsel)

theorem State.Inv.setIf {s : State} (h : s.Inv) {sel : IfSelector} (hf : familyOf sel ∈ s.params.ifFamilies) :
    (s.setIf (some sel)).Inv where
  counters := h.counters
  callers := h.callers
  entries e he := (h.entries e he).mono rfl rfl id
  quiet := h.quiet
  inRange := h.inRange
  interface sel' hsel := by cases hsel; exact hf

theorem State.Inv.tearDown {s : State} (h : s.Inv) (hp : s.pend = []) : s.tearDown.Inv where
  counters := h.counters
  callers := h.callers
  entries e he := (h.entries e he).mono rfl rfl id
  quiet _ := hp
  inRange := h.inRange
  interface := h.interface

theorem State.Inv.pendDrop {s : State} (h : s.Inv) (c : Nat) : (s.pendDrop c).Inv where
  counters := h.counters
  callers := h.callers.sublist (pendErase_sublist c s.pend)
  entries e he := (h.entries e ((pendErase_sublist c s.pend).subset he)).mono rfl rfl id
  quiet hd := by simp [h.quiet hd, pendErase]
  inRange := h.inRange
  interface := h.interface

/-- The entry that an issue step adds is sound (R17, R90, R113). -/
theorem sound_queueSend {s : State} {cmd : Instr} {univ : Nat} {pay : Bytes} {prio : Byte} {dest : Dest} {bytes : Bytes}
    (hc : s.caller < s.params.nports) (hd : dest = mcastAddr s.params univ ∨ ∃ host, dest = .ucast host)
    (hb : build s.params univ s.name s.cid (s.seqRead univ) pay prio = .ok bytes) :
    PendEntry.Sound (s.queueSend cmd univ dest bytes) ⟨s.caller, dest, s.port, bytes, univ, s.seqRead univ⟩ := by
  obtain ⟨n, c, -, -, ha, rfl⟩ := build_ok_packetOf hb
  have hlen := packetLayout_length s.params.wire ha.cidFits (nameField_length n) prio (s.seqRead univ) univ pay
  have hpay := ha.payPresent
  have hfits := ha.payFits
  exact {
    portExists := hc
    udpPort := rfl
    shortest := by rw [packetOf, hlen]; omega
    longest := by rw [packetOf, hlen]; omega
    seqByte := byteAt_packetLayout_seq _ ha.cidFits ..
    univBytes := readBe16_packetLayout_univ _ ha.cidFits _ _ _ _ _ ha.univFits
    univFits := ha.univFits
    univSeen := State.queueSend_inDom_self ..
    dest := hd }

theorem State.Inv.queueSend {s : State} (h : s.Inv) {cmd : Instr} {univ : Nat} {pay : Bytes} {prio : Byte} {dest : Dest}
    {bytes : Bytes} (hup : s.tornDown = false) (hsend : s.MaySend)
    (hd : dest = mcastAddr s.params univ ∨ ∃ host, dest = .ucast host)
    (hb : build s.params univ s.name s.cid (s.seqRead univ) pay prio = .ok bytes) :
    (s.queueSend cmd univ dest bytes).Inv := by
  obtain ⟨_, _, -, -, ha, -⟩ := build_ok hb
  have hdom : ∀ u, u ≠ univ → (s.queueSend cmd univ dest bytes).inDom u = s.inDom u :=
    fun u hu => State.queueSend_inDom_other s cmd univ dest bytes hu
  exact {
    counters := wf_insert ha.univFits _ h.counters
    callers := pairwise_pendInsert h.callers (pendFind_none hsend.2)
    entries := by
      intro e he
      rcases mem_pendInsert.mp he with rfl | he
      · exact sound_queueSend hsend.1 hd hb
      · refine (h.entries e he).mono rfl rfl fun hu => ?_
        by_cases heq : e.univ = univ
        · rw [heq]; exact State.queueSend_inDom_self ..
        · rw [hdom _ heq]; exact hu
    quiet := fun htorn => by rw [State.queueSend_tornDown, hup] at htorn; cases htorn
    inRange := by
      intro hp u hu
      by_cases heq : u = univ
      · rw [heq]; exact ha.univInRange hp
      · exact h.inRange hp u (hdom u heq ▸ hu)
    interface := h.interface }

theorem inv_constructed (s : State) (c : Nat) (cid name : Option Bytes) (port : Option (BitVec 16)) :
    (s.constructed c cid name port).Inv where
  counters := rfl
  callers := .nil
  entries _ he := nomatch he
  quiet _ := rfl
  inRange _ _ hu := nomatch hu
  interface _ hsel := nomatch hsel

theorem inv_exec {i : Instr} {s t : State} (h : s.Inv) (hsend : ∀ u, i.sendsOn u → s.MaySend)
    (hexec : exec i s = .next t) : t.Inv := by
  rcases exec_cases hexec with ⟨cmd, e, rfl⟩ | ⟨univ, pay, prio, dest, bytes, hi, hup, hd, hb, rfl⟩ | ⟨r, rfl⟩
    | ⟨sel, -, -, hf, rfl⟩ | ⟨sel, rfl⟩ | ⟨-, hp, rfl⟩
  · exact h.of_sameBlock (sameBlock_reject s cmd e)
  · exact h.queueSend hup (hsend univ hi) hd hb
  · exact h.of_sameBlock ⟨rfl, rfl, rfl, rfl, rfl, rfl, rfl, rfl⟩
  · exact (h.setIf hf).of_sameBlock ⟨rfl, rfl, rfl, rfl, rfl, rfl, rfl, rfl⟩
  · exact h.of_sameBlock ⟨rfl, rfl, rfl, rfl, rfl, rfl, rfl, rfl⟩
  · exact (h.tearDown hp).of_sameBlock ⟨rfl, rfl, rfl, rfl, rfl, rfl, rfl, rfl⟩

theorem kept_inv : Kept State.Inv where
  inbox _ h := h.of_sameBlock ⟨rfl, rfl, rfl, rfl, rfl, rfl, rfl, rfl⟩
  serving _ h := h.of_sameBlock ⟨rfl, rfl, rfl, rfl, rfl, rfl, rfl, rfl⟩
  runs := inv_exec
  completes {_ e} _ h _ := (h.pendDrop e.caller).of_sameBlock ⟨rfl, rfl, rfl, rfl, rfl, rfl, rfl, rfl⟩
  constructs := inv_constructed

/-- Settles O53: each change a step is made of keeps the invariant. -/
theorem stepKeepsInv : Obligations.StepKeepsInv := fun _ _ => kept_inv.step

/-! ### The sequence numbering -/

theorem issuedSeqs_append (u : Nat) (h h' : List Event) : issuedSeqs u (h ++ h') = issuedSeqs u h ++ issuedSeqs u h' :=
  List.filterMap_append

theorem issuedSeqs_issued (u c : Nat) (cmd : Instr) (v : Nat) (q : Byte) (d : Dest) (p : BitVec 16) (b : Bytes) :
    issuedSeqs u [.issued c cmd v q d p b] = if v = u then [q] else [] := by
  simp only [issuedSeqs, List.filterMap_cons, List.filterMap_nil]
  by_cases h : v = u <;> simp [h]

theorem Event.AtOnce.issuedSeqs {e : Event} (h : e.AtOnce) (u : Nat) : issuedSeqs u [e] = [] := by
  cases e with
  | issued => exact h.elim
  | completed | rejected | built | configured | tornDown => rfl

theorem sequenceNumbers_succ (n : Nat) : sequenceNumbers (n + 1) = sequenceNumbers n ++ [BitVec.ofNat 8 n] := by
  simp [sequenceNumbers, List.range_succ]

/-- The counter advances from the number of issue steps to the next (R116). -/
theorem nextSeq_ofNat (n : Nat) : nextSeq (BitVec.ofNat 8 n) = BitVec.ofNat 8 (n + 1) := by
  rw [nextSeq, BitVec.ofNat_add]
  rfl

/-- An event that is no issue step leaves the numbering as it is, when no counter moves. -/
theorem State.Numbered.of_record {s t : State} {e : Event} (h : s.Numbered) (hseq : t.seq = s.seq)
    (hhist : t.hist = s.hist ++ [e]) (he : ∀ u, issuedSeqs u [e] = []) : t.Numbered := by
  intro u
  have hsame : issuedSeqs u t.hist = issuedSeqs u s.hist := by
    rw [hhist, issuedSeqs_append, he, List.append_nil]
  rw [hsame, seqRead_congr hseq, inDom_congr hseq]
  exact h u

/-- An issue step carries the next number of its universe (R21 (b), R113, R116). -/
theorem State.Numbered.queueSend {s : State} (h : s.Numbered) (cmd : Instr) (univ : Nat) (dest : Dest) (bytes : Bytes) :
    (s.queueSend cmd univ dest bytes).Numbered := by
  intro u
  obtain ⟨hnumbers, hcounter, hdom⟩ := h u
  rw [State.queueSend_hist, issuedSeqs_append, issuedSeqs_issued]
  by_cases hu : univ = u
  · subst hu
    rw [if_pos rfl, List.length_append, List.length_singleton, sequenceNumbers_succ, ← hnumbers,
      State.queueSend_seqRead_self, State.queueSend_inDom_self, hcounter, nextSeq_ofNat]
    simp
  · rw [if_neg hu, List.append_nil, State.queueSend_seqRead_other _ _ _ _ _ (Ne.symm hu),
      State.queueSend_inDom_other _ _ _ _ _ (Ne.symm hu)]
    exact h u

theorem numbered_constructed (s : State) (c : Nat) (cid name : Option Bytes) (port : Option (BitVec 16)) :
    (s.constructed c cid name port).Numbered :=
  fun _ => ⟨rfl, rfl, iff_of_false Bool.false_ne_true fun h => h rfl⟩

theorem kept_numbered : Kept State.Numbered where
  inbox _ h := h
  serving _ h := h
  runs h _ hexec := by
    rcases exec_answered_or_queued hexec with ⟨e, ha⟩ | ⟨univ, dest, bytes, -, rfl⟩
    · exact h.of_record ha.seq ha.hist ha.atOnce.issuedSeqs
    · exact h.queueSend _ univ dest bytes
  completes _ h _ := h.of_record rfl rfl fun _ => rfl
  constructs := numbered_constructed

/-- Settles O54: only an issue step moves a counter, and it carries the counter's value. -/
theorem stepKeepsNumbering : Obligations.StepKeepsNumbering := fun _ _ => kept_numbered.step

/-! ### The records -/

section
variable (c : Nat) (h h' : List Event)

theorem issuedBy_append : issuedBy c (h ++ h') = issuedBy c h ++ issuedBy c h' := List.filterMap_append

theorem completedFor_append : completedFor c (h ++ h') = completedFor c h ++ completedFor c h' := List.filterMap_append

end

theorem issuedBy_issued (c c' : Nat) (cmd : Instr) (u : Nat) (q : Byte) (d : Dest) (p : BitVec 16) (b : Bytes) :
    issuedBy c [.issued c' cmd u q d p b] = if c' = c then [(d, p, b)] else [] := by
  simp only [issuedBy, List.filterMap_cons, List.filterMap_nil]
  by_cases h : c' = c <;> simp [h]

theorem completedFor_completed (c c' : Nat) (d : Dest) (p : BitVec 16) (b : Bytes) (st : TxStatus) :
    completedFor c [.completed c' d p b st] = if c' = c then [(d, p, b)] else [] := by
  simp only [completedFor, List.filterMap_cons, List.filterMap_nil]
  by_cases h : c' = c <;> simp [h]

theorem Event.AtOnce.issuedBy {e : Event} (h : e.AtOnce) (c : Nat) : issuedBy c [e] = [] := by
  cases e with
  | issued => exact h.elim
  | completed | rejected | built | configured | tornDown => rfl

theorem Event.AtOnce.completedFor {e : Event} (h : e.AtOnce) (c : Nat) : completedFor c [e] = [] := by
  cases e with
  | completed => exact h.elim
  | issued | rejected | built | configured | tornDown => rfl

theorem Event.AtOnce.datagram {e : Event} (h : e.AtOnce) : e.datagram = none := by
  cases e with
  | issued => exact h.elim
  | completed | rejected | built | configured | tornDown => rfl

theorem pendingFor_cons (c : Nat) (e : PendEntry) (l : List PendEntry) :
    pendingFor c (e :: l) = if e.caller = c then (e.dest, e.port, e.bytes) :: pendingFor c l else pendingFor c l := by
  simp only [pendingFor, List.filterMap_cons]
  by_cases h : e.caller = c <;> simp [h]

/-- A caller with no entry has no datagram pending. -/
theorem pendingFor_of_idle {c : Nat} {l : List PendEntry} (h : pendFind c l = none) : pendingFor c l = [] :=
  List.filterMap_eq_nil_iff.mpr fun e he => if_neg (pendFind_none h e he)

/-- Adding an entry for an idle caller: its datagram is then that caller's only one, and no other caller's change. -/
theorem pendingFor_pendInsert {e : PendEntry} {l : List PendEntry} (h : pendFind e.caller l = none) (c : Nat) :
    pendingFor c (pendInsert e l) =
      pendingFor c l ++ if e.caller = c then [(e.dest, e.port, e.bytes)] else [] := by
  have hperm : (pendingFor c (pendInsert e l)).Perm (pendingFor c (e :: l)) := (pendInsert_perm e l).filterMap _
  by_cases hc : e.caller = c
  · have hnone : pendingFor c l = [] := pendingFor_of_idle (hc ▸ h)
    rw [pendingFor_cons, if_pos hc, hnone] at hperm
    rw [if_pos hc, hnone]
    exact List.perm_singleton.mp hperm
  · rw [if_neg hc, List.append_nil]
    clear hperm h
    induction l with
    | nil => simp [pendInsert, pendingFor_cons, hc]
    | cons x rest ih =>
      simp only [pendInsert]
      split
      · simp [pendingFor_cons, hc]
      · simp only [pendingFor_cons, ih]

/-- The entry found is the first of its caller's, and erasing it takes its datagram off the front. -/
theorem pendingFor_of_find {e : PendEntry} {l : List PendEntry} (h : pendFind e.caller l = some e) (c : Nat) :
    pendingFor c l =
      (if e.caller = c then [(e.dest, e.port, e.bytes)] else []) ++ pendingFor c (pendErase e.caller l) := by
  induction l with
  | nil => cases h
  | cons x rest ih =>
    simp only [pendFind, pendErase] at h ⊢
    by_cases hx : x.caller = e.caller
    · rw [if_pos hx] at h ⊢
      cases h
      rw [pendingFor_cons]
      split <;> rfl
    · rw [if_neg hx] at h ⊢
      rw [pendingFor_cons, pendingFor_cons, ih h]
      by_cases hc : x.caller = c
      · simp [hc, show ¬ e.caller = c from fun heq => hx (hc.trans heq.symm)]
      · simp [hc]

/-- The records after a command that its own step answered. -/
theorem State.Recorded.of_answered {s t : State} {e : Event} (h : s.Recorded) (ha : Answered e s t) : t.Recorded where
  answered := by
    rw [ha.rsp, ha.hist, List.filterMap_append, h.answered]
    cases he : e.response <;> simp [he]
  transmitted := by simp [ha.datagrams, ha.hist, h.transmitted, ha.atOnce.datagram]
  conserved c := by
    rw [ha.hist, issuedBy_append, completedFor_append, ha.atOnce.issuedBy, ha.atOnce.completedFor, ha.pend,
      h.conserved c, List.append_nil, List.append_nil]

/-- The records after an issue step: one more datagram handed over, the caller's only pending one (R38, R84, R113). -/
theorem State.Recorded.queueSend {s : State} (h : s.Recorded) (hidle : pendFind s.caller s.pend = none) (cmd : Instr)
    (univ : Nat) (dest : Dest) (bytes : Bytes) : (s.queueSend cmd univ dest bytes).Recorded where
  answered := by simp [h.answered, Event.response]
  transmitted := by simp [h.transmitted, TransportMsg.datagram, Event.datagram]
  conserved c := by
    rw [State.queueSend_hist, issuedBy_append, completedFor_append, State.queueSend_pend, pendingFor_pendInsert hidle,
      issuedBy_issued, h.conserved c]
    simp [completedFor]

/-- The records after a completion: the caller's first pending datagram becomes its last completed one (R118). -/
theorem State.Recorded.complete {s : State} (h : s.Recorded) {e : PendEntry} (hfind : pendFind e.caller s.pend = some e)
    (st : TxStatus) : (complete e st s).Recorded where
  answered := by simp [Machine.complete, h.answered, Event.response]
  transmitted := by simp [Machine.complete, h.transmitted, Event.datagram]
  conserved c := by
    have hissued : issuedBy c [.completed e.caller e.dest e.port e.bytes st] = [] := rfl
    simp only [Machine.complete, State.respondTo_hist, State.respondTo_pend, State.record_hist, State.record_pend,
      State.pendDrop_hist, State.pendDrop_pend]
    rw [issuedBy_append, hissued, completedFor_append, completedFor_completed, h.conserved c,
      pendingFor_of_find hfind c, List.append_nil, List.append_assoc]

theorem recorded_constructed (s : State) (c : Nat) (cid name : Option Bytes) (port : Option (BitVec 16)) :
    (s.constructed c cid name port).Recorded := ⟨rfl, rfl, fun _ => rfl⟩

theorem kept_recorded : Kept State.Recorded where
  inbox _ h := ⟨h.answered, h.transmitted, h.conserved⟩
  serving _ h := ⟨h.answered, h.transmitted, h.conserved⟩
  runs h hsend hexec := by
    rcases exec_answered_or_queued hexec with ⟨e, ha⟩ | ⟨univ, dest, bytes, hi, rfl⟩
    · exact h.of_answered ha
    · exact h.queueSend (hsend univ hi).2 _ univ dest bytes
  completes st h hfind := h.complete hfind st
  constructs := recorded_constructed

/-- Settles O55: an issue step and a completion move one datagram of their caller along, and every other change of the
records is one event with its response. -/
theorem stepKeepsTheRecords : Obligations.StepKeepsTheRecords := fun _ _ => kept_recorded.step

/-! ### The state after reset -/

/-- The state after reset is a construction with every operand absent (R20, log entry 8). -/
theorem constructed_eq_reset {s : State} (hparams : s.params = .default) (hinbox : s.inbox = []) :
    s.constructed 0 none none none = State.reset := by
  rw [State.constructed, hparams, hinbox]
  rfl

/-- Settles O52: the state after reset is a new block, which meets each of the three. -/
theorem resetMeetsTheInvariants : Obligations.ResetMeetsTheInvariants :=
  have hreset : State.reset.constructed 0 none none none = State.reset := constructed_eq_reset rfl rfl
  ⟨hreset ▸ inv_constructed _ _ _ _ _, hreset ▸ numbered_constructed _ _ _ _ _,
    hreset ▸ recorded_constructed _ _ _ _ _⟩

/-! ### What follows from the numbering and from the records -/

/-- The number of an issue step is its place on its universe, modulo 256. -/
theorem State.Numbered.toNat_of_getElem? {s : State} (h : s.Numbered) {u k : Nat} {q : Byte}
    (hk : (issuedSeqs u s.hist)[k]? = some q) : q.toNat = k % 256 := by
  obtain ⟨hnumbers, -, -⟩ := h u
  rw [hnumbers, sequenceNumbers, List.getElem?_map, Option.map_eq_some_iff] at hk
  obtain ⟨j, hj, rfl⟩ := hk
  obtain ⟨hlt, rfl⟩ := List.getElem?_eq_some_iff.mp hj
  simp

/-- Settles O56: the number is the place modulo 256, and 256 successive places differ modulo 256. -/
theorem equalNumbersAre256Apart : Obligations.EqualNumbersAre256Apart := by
  intro s u h
  have hplace : ∀ j k a, (issuedSeqs u s.hist)[j]? = some a → (issuedSeqs u s.hist)[k]? = some a →
      j % 256 = k % 256 :=
    fun j k a hj hk => (h.toNat_of_getElem? hj).symm.trans (h.toNat_of_getElem? hk)
  refine ⟨hplace, fun first n hn => List.nodup_iff_getElem?_ne_getElem?.mpr fun i j hij hj heq => ?_⟩
  have hjn : j < n := by simp at hj; omega
  have ha := List.getElem?_eq_getElem hj
  rw [ha] at heq
  rw [List.getElem?_take_of_lt (by omega), List.getElem?_drop] at heq ha
  have := hplace _ _ _ heq ha
  omega

/-- With nothing pending for any caller, nothing is pending. -/
theorem pend_eq_nil_of_pendingFor {l : List PendEntry} (h : ∀ c, pendingFor c l = []) : l = [] := by
  cases l with
  | nil => rfl
  | cons e rest =>
    have := h e.caller
    rw [pendingFor_cons, if_pos rfl] at this
    cases this

/-- Settles O57: what a caller has issued and not yet seen completed is what is pending for it. -/
theorem nothingPendingWhenAllAnswered : Obligations.NothingPendingWhenAllAnswered := by
  intro s h
  constructor
  · intro hall
    refine pend_eq_nil_of_pendingFor fun c => ?_
    have hc := h.conserved c
    rw [hall c] at hc
    exact List.self_eq_append_right.mp hc
  · intro hp c
    rw [h.conserved c, hp]
    exact List.append_nil _

end Sys2Proof.Machine
end

section
/-! PROOFS. The family `10_state`: the sends, the pure commands, the frames, the interface, the reset event and the placed
word. -/

namespace Sys2Proof.Machine

/-! ### The two sends -/

/-- Queueing a packet is the issue step of R113. -/
theorem sendIssued_queueSend (cmd : Instr) (univ : Nat) (dest : Dest) (bytes : Bytes) (s : State) :
    SendIssued cmd univ dest bytes s (s.queueSend cmd univ dest bytes) where
  counter := State.queueSend_seqRead_self ..
  entered := State.queueSend_inDom_self ..
  others _ hv := ⟨State.queueSend_seqRead_other _ _ _ _ _ hv, State.queueSend_inDom_other _ _ _ _ _ hv⟩
  queued := pendInsert_perm _ _
  recorded := rfl
  transmitted := rfl
  unanswered := rfl
  registers := ⟨rfl, rfl, rfl, rfl, rfl, rfl⟩
  caller := rfl
  inbox := rfl

/-- A send that passes queues the packet of R50 with the counter before the increment. -/
theorem issue_eq_queueSend_packetOf {s : State} {univ : Nat} {pay : Bytes} {prio : Option Byte} {name cid : Bytes}
    (h : ReadyToSend s univ pay prio name cid) (cmd : Instr) (dest : Dest) :
    issue cmd univ pay prio dest s =
      s.queueSend cmd univ dest (packetOf s.params univ name cid (s.seqRead univ) pay (priorityOf prio)) := by
  rw [issue_of_ready h, packetOf,
    writePacket_eq_packetLayout s.params.wire name h.accepted.cidFits _ univ pay _ (zeros_length _)]

/-- Settles O22: a send that passes queues its packet, for the derived address. -/
theorem sendMcastIssues : Obligations.SendMcastIssues := by
  intro s univ pay prio name cid h
  refine ⟨_, rfl, ?_⟩
  rw [issue_eq_queueSend_packetOf h]
  exact sendIssued_queueSend ..

/-- Settles O23: a send that passes queues its packet, for the host string given. -/
theorem sendUcastIssues : Obligations.SendUcastIssues := by
  intro s host univ pay prio name cid h
  refine ⟨_, rfl, ?_⟩
  rw [issue_eq_queueSend_packetOf h]
  exact sendIssued_queueSend ..

/-- Settles O24: both sends are the issue step, which answers the cause. -/
theorem rejectedSendChangesNothing : Obligations.RejectedSendChangesNothing := by
  intro s host univ pay prio cause hup h
  have hb := build_of_cause h (s.seqRead univ)
  exact ⟨congrArg _ (issue_of_error hup hb _ _), congrArg _ (issue_of_error hup hb _ _)⟩

/-! ### The omitted priority -/

/-- An issue step records one event, and does nothing else with the command it is given than name it there. -/
theorem issue_naming (cmd cmd' : Instr) (univ : Nat) (pay : Bytes) (prio : Option Byte) (dest : Dest) (s : State) :
    ∃ event, (issue cmd univ pay prio dest s).hist = s.hist ++ [event] ∧ event.naming cmd = event
      ∧ issue cmd' univ pay prio dest s =
          { issue cmd univ pay prio dest s with hist := s.hist ++ [event.naming cmd'] } := by
  cases hd : s.tornDown with
  | true =>
    simp only [issue_of_tornDown hd]
    exact ⟨_, rfl, rfl, rfl⟩
  | false =>
    cases hb : build s.params univ s.name s.cid (s.seqRead univ) pay (priorityOf prio) with
    | error cause =>
      simp only [issue_of_error hd hb]
      exact ⟨_, rfl, rfl, rfl⟩
    | ok bytes =>
      simp only [issue_of_ok hd hb]
      exact ⟨_, rfl, rfl, rfl⟩

/-- `BUILD` records one event, and does nothing else with its priority operand than read the priority it stands for and
name it there, when it names a command. -/
theorem exec_build_naming (s : State) (univ : Nat) (name cid : Option Bytes) (seq : Byte) (pay : Bytes)
    {prio prio' : Option Byte} (hprio : priorityOf prio' = priorityOf prio) :
    ∃ t event, exec (.build univ name cid seq pay prio) s = .next t ∧ t.hist = s.hist ++ [event]
      ∧ event.naming (.build univ name cid seq pay prio) = event
      ∧ exec (.build univ name cid seq pay prio') s =
          .next { t with hist := s.hist ++ [event.naming (.build univ name cid seq pay prio')] } := by
  cases hb : build s.params univ name cid seq pay (priorityOf prio) with
  | ok bytes => exact ⟨_, _, exec_build_of_ok hb, rfl, rfl, exec_build_of_ok (hprio ▸ hb)⟩
  | error cause => exact ⟨_, _, exec_build_of_error hb, rfl, rfl, exec_build_of_error (hprio ▸ hb)⟩

/-- Settles O28: the priority of a command is read through `priorityOf` alone, and the command itself is but named. -/
theorem omittedPriorityIsOneHundred : Obligations.OmittedPriorityIsOneHundred := by
  intro s host univ name cid seq pay
  refine ⟨?_, ?_, exec_build_naming s univ name cid seq pay rfl, fun hv => ?_⟩
  · obtain ⟨event, hhist, hself, hother⟩ := issue_naming (.sendMcast univ pay none)
      (.sendMcast univ pay (some 100)) univ pay none (mcastAddr s.params univ) s
    exact ⟨_, event, rfl, hhist, hself, congrArg _ hother⟩
  · obtain ⟨event, hhist, hself, hother⟩ := issue_naming (.sendUcast host univ pay none)
      (.sendUcast host univ pay (some 100)) univ pay none (.ucast host) s
    exact ⟨_, event, rfl, hhist, hself, congrArg _ hother⟩
  · obtain ⟨n, c, rfl, rfl, ha⟩ := validate_none.mp hv
    have hb := build_of_acceptable (name := n) ha seq
    rw [exec_build_of_ok (prio := none) hb, exec_build_of_ok (prio := some 100) hb]

/-- Settles O48: `BUILD` and `MCAST_ADDR` answer by the parameters and their operands alone. -/
theorem pureCommandsReadNoState : Obligations.PureCommandsReadNoState := by
  rintro s s' i hparams hcaller (⟨univ, name, cid, seq, pay, prio, rfl⟩ | ⟨univ, rfl⟩)
  · cases hb : build s.params univ name cid seq pay (priorityOf prio) with
    | ok bytes =>
      refine ⟨_, _, _, _, exec_build_of_ok hb, exec_build_of_ok (hparams ▸ hb), rfl, ?_⟩
      rw [hcaller]; rfl
    | error cause =>
      refine ⟨_, _, _, _, exec_build_of_error hb, exec_build_of_error (hparams ▸ hb), rfl, ?_⟩
      rw [hcaller]; rfl
  · cases hv : validateUniverse s.params univ with
    | none =>
      refine ⟨_, _, _, _, exec_mcastAddr_of_none hv, exec_mcastAddr_of_none (hparams ▸ hv), rfl, ?_⟩
      rw [hcaller, hparams]; rfl
    | some cause =>
      refine ⟨_, _, _, _, exec_mcastAddr_of_some hv, exec_mcastAddr_of_some (hparams ▸ hv), rfl, ?_⟩
      rw [hcaller]; rfl

/-! ### Frames over an instruction and over a step -/

/-- Settles O45, field by field. -/
theorem frameOfEveryInstruction : Obligations.FrameOfEveryInstruction := by
  intro i s t h
  obtain ⟨hcid, hname, hport, hparams, hinbox, hcaller⟩ := exec_fixed h
  refine ⟨hcid, hname, hport, hparams, hinbox, hcaller, fun hi => ?_, fun hi => ?_, exec_of_not_send h,
    fun u hu v => exec_counters_other h hu, exec_records h⟩
  · exact (exec_mcastIf h).resolve_right fun ⟨sel, hsel, _⟩ => hi sel hsel
  · exact (exec_tornDown h).resolve_right fun ⟨htd, _⟩ => hi htd

/-- Settles O46: a reserved descriptor and a completion change no register, and an instruction its own at most. -/
theorem registersOverAStep : Obligations.RegistersOverAStep := by
  intro s t h
  rcases step_cases h with ⟨-, rfl⟩ | ⟨x, rest, hn, hx⟩
  · exact .inr ⟨rfl, rfl, rfl, rfl, id, .inl rfl⟩
  rcases hx with ⟨c, d, r, -, -, rfl⟩ | ⟨c, i, hp, hi⟩ | ⟨c, st, e, -, -, -, rfl⟩ | ⟨c, cid, name, port, iface, rfl, -⟩
  · exact .inr ⟨rfl, rfl, rfl, rfl, id, .inl rfl⟩
  · obtain ⟨hcid, hname, hport, hparams, -, -⟩ := exec_fixed hi
    refine .inr ⟨hcid, hname, hport, hparams, fun htd => ?_, (exec_mcastIf hi).imp_right ?_⟩
    · rcases exec_tornDown hi with hsame | ⟨-, htrue⟩
      · exact hsame.trans htd
      · exact htrue
    · rintro ⟨sel, rfl, hsel⟩
      exact ⟨c, x, rest, sel, hn, hp, hsel⟩
  · exact .inr ⟨rfl, rfl, rfl, rfl, id, .inl rfl⟩
  · exact .inl ⟨c, cid, name, port, iface, rest, hn⟩

/-- Settles O47: of all that a step can do, only a send that passes moves a counter. -/
theorem countersOnlyMoveForward : Obligations.CountersOnlyMoveForward := by
  intro s t h
  rcases step_cases h with ⟨-, rfl⟩ | ⟨x, rest, hn, hx⟩
  · exact .inr (.inl rfl)
  rcases hx with ⟨c, d, r, -, -, rfl⟩ | ⟨c, i, hp, hi⟩ | ⟨c, st, e, -, -, -, rfl⟩ | ⟨c, cid, name, port, iface, rfl, -⟩
  · exact .inr (.inl rfl)
  · rcases exec_answered_or_queued hi with ⟨e, ha⟩ | ⟨u, -, -, hu, -⟩
    · exact .inr (.inl ha.seq)
    · refine .inr ((exec_send hu hi).imp_right ?_)
      rintro ⟨hpass, dest, bytes, rfl⟩
      exact ⟨c, x, rest, i, u, hn, hp, hu, passesIn_of_serving hpass, State.queueSend_seqRead_self ..,
        fun v hv => State.queueSend_seqRead_other _ _ _ _ _ hv⟩
  · exact .inr (.inl rfl)
  · exact .inl ⟨c, cid, name, port, iface, rest, hn⟩

/-! ### The interface, which nothing reads -/

theorem alike_setIf (t : State) (sel : Option IfSelector) :
    AlikeButForInterface (.next t) (.next (t.setIf sel)) := rfl

theorem issue_setIf (cmd : Instr) (univ : Nat) (pay : Bytes) (prio : Option Byte) (dest : Dest) (s : State)
    (sel : Option IfSelector) :
    issue cmd univ pay prio dest (s.setIf sel) = (issue cmd univ pay prio dest s).setIf sel := by
  cases hd : s.tornDown with
  | true => rw [issue_of_tornDown hd, issue_of_tornDown (s := s.setIf sel) hd]; rfl
  | false =>
    cases hb : build s.params univ s.name s.cid (s.seqRead univ) pay (priorityOf prio) with
    | error cause => rw [issue_of_error hd hb, issue_of_error (s := s.setIf sel) hd hb]; rfl
    | ok bytes => rw [issue_of_ok hd hb, issue_of_ok (s := s.setIf sel) hd hb]; rfl

theorem execSetMcastIf_setIf (selector : IfSelector) (s : State) (sel : Option IfSelector) :
    AlikeButForInterface (execSetMcastIf selector s) (execSetMcastIf selector (s.setIf sel)) := by
  cases hd : s.tornDown with
  | true => rw [execSetMcastIf_of_tornDown hd, execSetMcastIf_of_tornDown (s := s.setIf sel) hd]; rfl
  | false =>
    by_cases hf : familyOf selector ∈ s.params.ifFamilies
    · rw [execSetMcastIf_of_supported hd hf, execSetMcastIf_of_supported (s := s.setIf sel) hd hf]; rfl
    · rw [execSetMcastIf_of_unsupported hd hf, execSetMcastIf_of_unsupported (s := s.setIf sel) hd hf]; rfl

theorem execTeardown_setIf (s : State) (sel : Option IfSelector) :
    AlikeButForInterface (execTeardown s) (execTeardown (s.setIf sel)) := by
  by_cases hp : s.pend = []
  · rw [execTeardown_of_idle hp, execTeardown_of_idle (s := s.setIf sel) hp]; rfl
  · rw [execTeardown_of_pending hp, execTeardown_of_pending (s := s.setIf sel) hp]; rfl

/-- No instruction reads `MCAST_IF`. -/
theorem exec_setIf (i : Instr) (s : State) (sel : Option IfSelector) :
    AlikeButForInterface (exec i s) (exec i (s.setIf sel)) := by
  cases i with
  | sendMcast univ pay prio =>
    simp only [exec, execSendMcast, issue_setIf]
    exact alike_setIf _ sel
  | sendUcast host univ pay prio =>
    simp only [exec, execSendUcast, issue_setIf]
    exact alike_setIf _ sel
  | build univ name cid seq pay prio =>
    cases hb : build s.params univ name cid seq pay (priorityOf prio) with
    | ok bytes => rw [exec_build_of_ok hb, exec_build_of_ok (s := s.setIf sel) hb]; rfl
    | error cause => rw [exec_build_of_error hb, exec_build_of_error (s := s.setIf sel) hb]; rfl
  | mcastAddr univ =>
    cases hv : validateUniverse s.params univ with
    | none => rw [exec_mcastAddr_of_none hv, exec_mcastAddr_of_none (s := s.setIf sel) hv]; rfl
    | some cause => rw [exec_mcastAddr_of_some hv, exec_mcastAddr_of_some (s := s.setIf sel) hv]; rfl
  | setMcastIf selector => exact execSetMcastIf_setIf selector s sel
  | teardown => exact execTeardown_setIf s sel
  | e131DataPacket => rfl

/-- No input is served by `MCAST_IF`; the reset event overwrites it. -/
theorem serve_setIf (x : Input) (s : State) (sel : Option IfSelector) :
    AlikeButForInterface (serve x s) (serve x (s.setIf sel)) := by
  cases x with
  | cmd c d =>
    simp only [serve, serveCommand]
    split
    · exact exec_setIf _ (s.serving c) sel
    · rfl
  | command c i => exact exec_setIf i (s.serving c) sel
  | txs c st =>
    simp only [serve, serveStatus, State.setIf_pend]
    split <;> rfl
  | construct c cid name port iface => exact AlikeButForInterface.refl _

theorem step_setIf (s : State) (sel : Option IfSelector) : AlikeButForInterface (step s) (step (s.setIf sel)) := by
  have hn : (s.setIf sel).nextInput = s.nextInput := nextInput_withInterface s sel
  cases hs : s.nextInput with
  | none => rw [step_of_nextInput_none hs, step_of_nextInput_none (hn.trans hs)]; rfl
  | some y =>
    obtain ⟨x, rest⟩ := y
    rw [step_of_nextInput hs, step_of_nextInput (hn.trans hs)]
    exact serve_setIf x (s.withInbox rest) sel

/-- Settles O49, instruction by instruction and input by input. -/
theorem nothingDependsOnTheInterface : Obligations.NothingDependsOnTheInterface :=
  fun s sel => ⟨nextInput_withInterface s sel, fun i => exec_setIf i s sel, step_setIf s sel⟩

/-! ### The reset event -/

/-- Settles O40: the step serves the reset event, whose interface operand is absent, supported or not. -/
theorem constructSetsEverything : Obligations.ConstructSetsEverything := by
  intro s c cid name port iface rest hn
  have hstep : step s = construct c cid name port iface (s.withInbox rest) := step_of_nextInput hn
  refine ⟨hstep, fun hp => ?_, fun hp => hstep.trans
    (construct_of_pending (s := s.withInbox rest) c cid name port hp iface)⟩
  have hp' : (s.withInbox rest).pend = [] := hp
  cases iface with
  | none =>
    exact ⟨_, hstep.trans (construct_of_none c cid name port hp'), rfl, rfl, rfl, rfl, rfl, rfl, rfl, rfl, rfl, rfl,
      rfl, rfl, rfl⟩
  | some sel =>
    rw [construct_of_some c cid name port hp'] at hstep
    by_cases hf : familyOf sel ∈ s.params.ifFamilies
    · refine ⟨_, hstep.trans (execSetMcastIf_of_supported rfl hf), rfl, rfl, rfl, rfl, rfl, rfl, rfl, rfl, rfl, ?_⟩
      dsimp only
      rw [if_pos hf]
      exact ⟨rfl, rfl, rfl, rfl⟩
    · refine ⟨_, hstep.trans (execSetMcastIf_of_unsupported rfl hf), rfl, rfl, rfl, rfl, rfl, rfl, rfl, rfl, rfl, ?_⟩
      dsimp only
      rw [if_neg hf]
      exact ⟨rfl, rfl, rfl, rfl⟩

/-- Settles O41: the values are those of the definition, and `CONSTRUCT` with no operand leaves them. -/
theorem resetValues : Obligations.ResetValues :=
  ⟨fun _ => ⟨rfl, rfl⟩, rfl, rfl, rfl, rfl, rfl, rfl, rfl, fun _ hpend hparams hinbox =>
    (construct_of_none 0 none none none hpend).trans (congrArg _ (constructed_eq_reset hparams hinbox))⟩

/-! ### The placed word -/

/-- When some port is idle, the least free port is one. -/
theorem freePort_idle {s : State} (h : ∃ c, c < s.params.nports ∧ s.busy c = false) :
    s.freePort < s.params.nports ∧ s.busy s.freePort = false := by
  obtain ⟨c, hc, hidle⟩ := h
  have hsome : ((List.range s.params.nports).find? fun c => !s.busy c).isSome :=
    List.find?_isSome.mpr ⟨c, List.mem_range.mpr hc, by simp [hidle]⟩
  obtain ⟨d, hd⟩ := Option.isSome_iff_exists.mp hsome
  have hport : s.freePort = d := by simp [State.freePort, hd]
  rw [hport]
  exact ⟨List.mem_range.mp (List.mem_of_find?_eq_some hd), by simpa using List.find?_some hd⟩

theorem decode_of_decodeTableWord {nbits w : Nat} {i : Instr} (h : decodeTableWord nbits w = some i) :
    decode (tableBytes nbits w) = .ok i := by
  unfold decodeTableWord at h
  split at h
  · rename_i hd; cases h; exact hd
  · cases h

/-- Settles O8: the placed word stands before every other input, on a port that accepts it. -/
theorem placedWordRunsNext : Obligations.PlacedWordRunsNext := by
  intro s nbits w i hw hport
  obtain ⟨hexists, hidle⟩ := freePort_idle hport
  have haccepts : (Input.cmd s.freePort (tableBytes nbits w)).enabled (s.withFetchWord nbits w) = true := by
    refine Bool.and_eq_true_iff.mpr ⟨decide_eq_true hexists, ?_⟩
    exact congrArg (! ·) hidle
  have hnext := takeFirst_head haccepts s.inbox
  exact ⟨s.freePort, hexists, hidle, step_of_presents hnext (.inr ⟨_, rfl, decode_of_decodeTableWord hw⟩)⟩

end Sys2Proof.Machine
end

section
/-! PROOFS. The family `20_memory`: writes to the output buffer, the completion of a pending entry, and two sends one
after the other. -/

namespace Sys2Proof.Machine

/-! ### The output buffer -/

/-- Settles O10, by the layout that the three writes leave. -/
theorem builderWritesTheLayout : Obligations.BuilderWritesTheLayout :=
  fun w name _ seq univ pay prio _ hcid hout => writePacket_eq_packetLayout w name hcid seq univ pay prio hout

/-- A write inside the buffer leaves every byte before it and behind it alone. -/
theorem byteAt_memWriteBytes_outside {addr i : Nat} {b out : Bytes} (hin : addr + b.length ≤ out.length)
    (hi : i < addr ∨ addr + b.length ≤ i) : byteAt (memWriteBytes addr b out) i = byteAt out i := by
  have hstart : (out.take addr).length = addr := List.length_take_of_le (by omega)
  have hwritten : (out.take addr ++ b).length = addr + b.length := by rw [List.length_append, hstart]
  rw [memWriteBytes]
  rcases hi with hbefore | hbehind
  · rw [byteAt_append_left (by omega), byteAt_append_left (by omega)]
    simp [byteAt, List.getElem?_take_of_lt hbefore]
  · rw [byteAt_append_right (by omega), hwritten]
    simp [byteAt, List.getElem?_drop, Nat.add_sub_of_le hbehind]

/-- Settles O50: what is read back, the length, and the bytes outside. -/
theorem bufferWriteThenRead : Obligations.BufferWriteThenRead :=
  fun _ _ _ hin => ⟨memRead_memWriteBytes hin, memWriteBytes_length hin, fun _ => byteAt_memWriteBytes_outside hin⟩

/-! ### The completion step -/

theorem serveStatus_of_pendFind {c : Nat} {s : State} {e : PendEntry} (h : pendFind c s.pend = some e) (st : TxStatus) :
    serveStatus c st s = .next (complete e st s) := by
  simp [serveStatus, h]

/-- A completion at the head of the inputs, for a pending entry and a status its destination admits, is what the step
does. -/
theorem step_txs_head {s : State} (hs : s.pend.Pairwise fun a b => a.caller < b.caller) {e : PendEntry}
    (he : e ∈ s.pend) {st : TxStatus} (hst : st = .resolveFail → ∃ host, e.dest = .ucast host) (rest : List Input) :
    step (s.withInbox (.txs e.caller st :: rest)) = .next (complete e st (s.withInbox rest)) := by
  have htaken : (s.withInbox (.txs e.caller st :: rest)).nextInput = some (.txs e.caller st, rest) :=
    takeFirst_head (enabled_txs_of_mem (s := s.withInbox (.txs e.caller st :: rest)) hs he hst) rest
  have hfind : pendFind e.caller (s.withInbox rest).pend = some e := pendFind_of_mem hs he
  exact (step_of_nextInput htaken).trans (serveStatus_of_pendFind hfind st)

/-- Settles O32: the step completes the entry, which is the caller's only one. -/
theorem completionTakesAnyEntryAndStatus : Obligations.CompletionTakesAnyEntryAndStatus := by
  intro s e st rest hs he hst
  have hadmitted : st = .resolveFail → ∃ host, e.dest = .ucast host := by
    rintro rfl
    simpa using hst
  refine ⟨pendErase e.caller s.pend, pendErase_perm (pendFind_of_mem hs he), ?_⟩
  refine (step_txs_head hs he hadmitted rest).trans ?_
  cases st <;> rfl

/-! ### Two sends on one universe -/

/-- Whether a send passes depends on the registers and the parameters alone. -/
theorem passesIn_of_sameRegisters {i : Instr} {s t : State} (h : SameRegisters s t) (hi : i.passesIn s) :
    i.passesIn t := by
  have hready : ∀ {univ pay prio}, (∃ name cid, ReadyToSend s univ pay prio name cid) →
      ∃ name cid, ReadyToSend t univ pay prio name cid := by
    rintro univ pay prio ⟨name, cid, hr⟩
    exact ⟨name, cid, h.tornDown.trans hr.up, h.name.trans hr.named, h.cid.trans hr.identified, h.params ▸ hr.accepted⟩
  cases i with
  | sendMcast | sendUcast => exact hready hi
  | build | mcastAddr | setMcastIf | teardown | e131DataPacket => exact hi.elim

/-- A send that passes queues a packet that carries the counter as it was (R113). -/
theorem exec_of_passesIn {i : Instr} {u : Nat} {s : State} (hu : i.sendsOn u) (hi : i.passesIn s) :
    ∃ dest bytes, exec i s = .next (s.queueSend i u dest bytes) ∧ byteAt bytes 111 = s.seqRead u := by
  cases i with
  | sendMcast | sendUcast =>
    subst hu
    obtain ⟨name, cid, hr⟩ := hi
    exact ⟨_, _, congrArg _ (issue_eq_queueSend_packetOf hr _ _), byteAt_packetLayout_seq _ hr.accepted.cidFits ..⟩
  | build | mcastAddr | setMcastIf | teardown | e131DataPacket => exact hu.elim

/-- Settles O30: the second send reads the counter that the first has advanced, and passes since no register moved. -/
theorem sameUniverseSendsGetConsecutiveNumbers : Obligations.SameUniverseSendsGetConsecutiveNumbers := by
  intro i j u c d s hiu hju hi hj
  have hi' : i.passesIn (s.serving c) := passesIn_of_sameRegisters (s := s) ⟨rfl, rfl, rfl, rfl, rfl, rfl⟩ hi
  obtain ⟨dest, bytes, hexec, hbyte⟩ := exec_of_passesIn hiu hi'
  have hj' : j.passesIn (((s.serving c).queueSend i u dest bytes).serving d) :=
    passesIn_of_sameRegisters (s := s) ⟨rfl, rfl, rfl, rfl, rfl, rfl⟩ hj
  obtain ⟨dest', bytes', hexec', hbyte'⟩ := exec_of_passesIn hju hj'
  have hnext : (((s.serving c).queueSend i u dest bytes).serving d).seqRead u = s.seqRead u + 1 :=
    State.queueSend_seqRead_self (s.serving c) i u dest bytes
  refine ⟨_, _, ⟨c, dest, s.port, bytes, u, s.seqRead u⟩, _, hexec, hexec',
    (pendInsert_perm _ _).trans ((pendInsert_perm _ _).cons _), rfl, rfl, rfl, hnext, hbyte, hbyte', ?_⟩
  rw [State.queueSend_seqRead_self, hnext, nextSeq, BitVec.add_assoc]
  rfl

/-! ### Two sends on different universes -/

/-- Writes to two different counters commute, on a counter file in canonical order. -/
theorem insert_comm {u v : Nat} (huv : u ≠ v) (a b : Byte) {m : List Host.Cell} (hm : Memory.rising 0 m = true) :
    Memory.insert u a (Memory.insert v b m) = Memory.insert v b (Memory.insert u a m) := by
  have hrising w x {l} : Memory.rising 0 l = true → Memory.rising 0 (Memory.insert w x l) = true :=
    rising_insert w x l 0 (Nat.zero_le w)
  refine eq_of_lookup (hrising u a (hrising v b hm)) (hrising v b (hrising u a hm)) fun w => ?_
  by_cases hu : w = u
  · subst hu
    rw [lookup_insert_self, lookup_insert_other huv, lookup_insert_self]
  · rw [lookup_insert_other hu]
    by_cases hv : w = v
    · subst hv
      rw [lookup_insert_self, lookup_insert_self]
    · rw [lookup_insert_other hv, lookup_insert_other hv, lookup_insert_other hu]

section
variable {e f : PendEntry} (hef : e.caller ≠ f.caller) {l : List PendEntry}
  (hl : l.Pairwise fun a b => a.caller < b.caller) (he : ∀ x ∈ l, x.caller ≠ e.caller)
  (hf : ∀ x ∈ l, x.caller ≠ f.caller)
include hef hl he hf

/-- Adding the entries of two idle callers keeps the canonical order. -/
theorem pairwise_pendInsert_two : (pendInsert e (pendInsert f l)).Pairwise fun a b => a.caller < b.caller := by
  refine pairwise_pendInsert (pairwise_pendInsert hl hf) fun x hx => ?_
  rcases mem_pendInsert.mp hx with rfl | hx
  · exact hef.symm
  · exact he x hx

/-- The order in which the entries of two idle callers are added does not show in the canonical pending set. -/
theorem pendInsert_comm : pendInsert e (pendInsert f l) = pendInsert f (pendInsert e l) := by
  have hperm : (pendInsert e (pendInsert f l)).Perm (pendInsert f (pendInsert e l)) :=
    calc
      List.Perm _ (e :: f :: l) := (pendInsert_perm e _).trans ((pendInsert_perm f l).cons e)
      List.Perm _ (f :: e :: l) := .swap f e l
      List.Perm _ (pendInsert f (pendInsert e l)) := ((pendInsert_perm f _).trans ((pendInsert_perm e l).cons f)).symm
  exact pend_eq_of_perm hperm (pairwise_pendInsert_two hef hl he hf) (pairwise_pendInsert_two hef.symm hl hf he)

end

/-- All that a send on `u` reads is the same in both states: the registers, the parameters and the counter of `u`. -/
structure SendsAlike (u : Nat) (s t : State) : Prop where
  registers : SameRegisters s t
  counter   : t.seqRead u = s.seqRead u

theorem SendsAlike.refl (u : Nat) (s : State) : SendsAlike u s s := ⟨⟨rfl, rfl, rfl, rfl, rfl, rfl⟩, rfl⟩

/-- What a send answers: an error, or a packet for a destination. -/
inductive SendAnswer where
  | error (e : Error)
  | packet (dest : Dest) (bytes : Bytes)

/-- The state after the send `cmd` of the caller `c` on `univ` with that answer. -/
def State.answerSend (c : Nat) (cmd : Instr) (univ : Nat) (answer : SendAnswer) (s : State) : State :=
  match answer with
  | .error e => (s.serving c).reject (some cmd) e
  | .packet dest bytes => (s.serving c).queueSend cmd univ dest bytes

/-- An issue step answers alike in all states in which a send on its universe reads the same. -/
theorem issue_alike (cmd : Instr) (univ : Nat) (pay : Bytes) (prio : Option Byte) (dest : Dest) (s : State) :
    ∃ answer, ∀ t c, SendsAlike univ s t →
      issue cmd univ pay prio dest (t.serving c) = t.answerSend c cmd univ answer := by
  cases hd : s.tornDown with
  | true =>
    exact ⟨.error (.badCommand .tornDown), fun t c h =>
      issue_of_tornDown (s := t.serving c) (h.registers.tornDown.trans hd) cmd dest⟩
  | false =>
    have hbuild : ∀ {t}, SendsAlike univ s t → build t.params univ t.name t.cid (t.seqRead univ) pay (priorityOf prio) =
        build s.params univ s.name s.cid (s.seqRead univ) pay (priorityOf prio) := by
      intro t h
      rw [h.registers.params, h.registers.name, h.registers.cid, h.counter]
    cases hb : build s.params univ s.name s.cid (s.seqRead univ) pay (priorityOf prio) with
    | error cause =>
      exact ⟨.error (.encoding cause), fun t c h =>
        issue_of_error (s := t.serving c) (h.registers.tornDown.trans hd) ((hbuild h).trans hb) cmd dest⟩
    | ok bytes =>
      exact ⟨.packet dest bytes, fun t c h =>
        issue_of_ok (s := t.serving c) (h.registers.tornDown.trans hd) ((hbuild h).trans hb) cmd dest⟩

/-- A send answers alike in all states in which what it reads is the same. -/
theorem exec_send_alike {i : Instr} {u : Nat} (hi : i.sendsOn u) (s : State) :
    ∃ answer, ∀ t c, SendsAlike u s t → exec i (t.serving c) = .next (t.answerSend c i u answer) := by
  cases i with
  | sendMcast univ pay prio =>
    subst hi
    obtain ⟨answer, hanswer⟩ := issue_alike (.sendMcast univ pay prio) univ pay prio (mcastAddr s.params univ) s
    refine ⟨answer, fun t c h => ?_⟩
    rw [← hanswer t c h, ← h.registers.params]
    rfl
  | sendUcast host univ pay prio =>
    subst hi
    obtain ⟨answer, hanswer⟩ := issue_alike (.sendUcast host univ pay prio) univ pay prio (.ucast host) s
    exact ⟨answer, fun t c h => congrArg _ (hanswer t c h)⟩
  | build | mcastAddr | setMcastIf | teardown | e131DataPacket => exact hi.elim

/-- A send on another universe changes nothing that a send on `u` reads, whatever it answers. -/
theorem sendsAlike_answerSend {u v : Nat} (huv : u ≠ v) (c : Nat) (cmd : Instr) (answer : SendAnswer) (s : State) :
    SendsAlike u s (s.answerSend c cmd v answer) := by
  cases answer with
  | error e => exact ⟨⟨rfl, rfl, rfl, rfl, rfl, rfl⟩, rfl⟩
  | packet dest bytes =>
    exact ⟨⟨rfl, rfl, rfl, rfl, rfl, rfl⟩, State.queueSend_seqRead_other (s.serving c) cmd v dest bytes huv⟩

/-- The same counters, pending set and registers, and the same records but for their order. -/
structure SameButForOrder (s t : State) : Prop where
  seq         : s.seq = t.seq
  pend        : s.pend = t.pend
  rsp         : s.rsp.Perm t.rsp
  hist        : s.hist.Perm t.hist
  toTransport : s.toTransport.Perm t.toTransport
  registers   : SameRegisters s t

theorem SameButForOrder.symm {s t : State} (h : SameButForOrder s t) : SameButForOrder t s where
  seq := h.seq.symm
  pend := h.pend.symm
  rsp := h.rsp.symm
  hist := h.hist.symm
  toTransport := h.toTransport.symm
  registers := ⟨h.registers.cid.symm, h.registers.name.symm, h.registers.port.symm, h.registers.mcastIf.symm,
    h.registers.tornDown.symm, h.registers.params.symm⟩

/-- The last two of a list in the other order. -/
theorem append_two_perm {α : Type} (l : List α) (a b : α) : (l ++ [a] ++ [b]).Perm (l ++ [b] ++ [a]) := by
  rw [List.append_assoc, List.append_assoc]
  exact (List.Perm.swap b a []).append_left l

section
variable (i j : Instr) {u v c d : Nat} {s : State}

theorem answerSend_error_error_comm (e f : Error) :
    SameButForOrder ((s.answerSend c i u (.error e)).answerSend d j v (.error f))
      ((s.answerSend d j v (.error f)).answerSend c i u (.error e)) where
  seq := rfl
  pend := rfl
  rsp := append_two_perm ..
  hist := append_two_perm ..
  toTransport := .refl _
  registers := ⟨rfl, rfl, rfl, rfl, rfl, rfl⟩

theorem answerSend_packet_error_comm (dest : Dest) (bytes : Bytes) (f : Error) :
    SameButForOrder ((s.answerSend c i u (.packet dest bytes)).answerSend d j v (.error f))
      ((s.answerSend d j v (.error f)).answerSend c i u (.packet dest bytes)) where
  seq := rfl
  pend := rfl
  rsp := .refl _
  hist := append_two_perm ..
  toTransport := .refl _
  registers := ⟨rfl, rfl, rfl, rfl, rfl, rfl⟩

variable (huv : u ≠ v) (hcd : c ≠ d) (hseq : Memory.wf s.seq = true)
  (hs : s.pend.Pairwise fun a b => a.caller < b.caller) (hidle : ∀ e ∈ s.pend, e.caller ≠ c ∧ e.caller ≠ d)
include huv hcd hseq hs hidle

theorem answerSend_packet_packet_comm (dest dest' : Dest) (bytes bytes' : Bytes) :
    SameButForOrder ((s.answerSend c i u (.packet dest bytes)).answerSend d j v (.packet dest' bytes'))
      ((s.answerSend d j v (.packet dest' bytes')).answerSend c i u (.packet dest bytes)) := by
  have hv : (((s.serving c).queueSend i u dest bytes).serving d).seqRead v = s.seqRead v :=
    (sendsAlike_answerSend huv.symm c i (.packet dest bytes) s).counter
  have hu : (((s.serving d).queueSend j v dest' bytes').serving c).seqRead u = s.seqRead u :=
    (sendsAlike_answerSend huv d j (.packet dest' bytes') s).counter
  simp only [State.answerSend]
  exact {
    seq := by
      rw [State.queueSend_seq, State.queueSend_seq, hu, hv]
      exact insert_comm huv.symm _ _ (Bool.and_eq_true_iff.mp hseq).1
    pend := by
      rw [State.queueSend_pend, State.queueSend_pend, hu, hv]
      exact pendInsert_comm hcd.symm hs (fun e he => (hidle e he).2) fun e he => (hidle e he).1
    rsp := .refl _
    hist := by
      rw [State.queueSend_hist, State.queueSend_hist, hu, hv]
      exact append_two_perm ..
    toTransport := append_two_perm ..
    registers := ⟨rfl, rfl, rfl, rfl, rfl, rfl⟩ }

/-- The effects of two sends on different universes commute, whatever the sends answer (R37). -/
theorem answerSend_comm (x y : SendAnswer) :
    SameButForOrder ((s.answerSend c i u x).answerSend d j v y) ((s.answerSend d j v y).answerSend c i u x) := by
  cases x with
  | error e =>
    cases y with
    | error f => exact answerSend_error_error_comm i j e f
    | packet dest bytes => exact (answerSend_packet_error_comm j i dest bytes e).symm
  | packet dest bytes =>
    cases y with
    | error f => exact answerSend_packet_error_comm i j dest bytes f
    | packet dest' bytes' => exact answerSend_packet_packet_comm i j huv hcd hseq hs hidle dest dest' bytes bytes'

end

/-- Settles O29: neither send changes what the other reads, so each answers the same in either order, and the effects
commute. -/
theorem sendsOnDifferentUniversesCommute : Obligations.SendsOnDifferentUniversesCommute := by
  intro i j u v c d s s1 s12 s2 s21 hi hj huv hcd hseq hs hidle h1 h12 h2 h21
  obtain ⟨x, hx⟩ := exec_send_alike hi s
  obtain ⟨y, hy⟩ := exec_send_alike hj s
  obtain rfl := Host.Outcome.next.inj ((hx s c (.refl u s)).symm.trans h1)
  obtain rfl := Host.Outcome.next.inj ((hy s d (.refl v s)).symm.trans h2)
  obtain rfl := Host.Outcome.next.inj ((hy _ d (sendsAlike_answerSend huv.symm c i x s)).symm.trans h12)
  obtain rfl := Host.Outcome.next.inj ((hx _ c (sendsAlike_answerSend huv d j y s)).symm.trans h21)
  have hsame := answerSend_comm i j huv hcd hseq hs hidle x y
  exact ⟨hsame.seq, hsame.pend, hsame.rsp, hsame.hist, hsame.toTransport, hsame.registers⟩

end Sys2Proof.Machine
end

section
/-! PROOFS. The family `30_encoding`: the fields of the packet at their offsets. -/

namespace Sys2Proof.Machine

/-! ### Strings read in parts -/

/-- A string read over its whole length. -/
theorem slice_zero_of_length {b : Bytes} {n : Nat} (h : b.length = n) : slice b 0 n = b := by
  rw [← h, slice_all]

/-- The bytes of a part are the string's, counted from where the part starts. -/
theorem byteAt_of_slice {b part : Bytes} {i j k : Nat} (h : slice b i j = part) (hk : k < j - i) :
    byteAt b (i + k) = byteAt part k := by
  rw [← h]
  simp [byteAt, slice, List.getElem?_take_of_lt hk, List.getElem?_drop]

theorem readBe16_lt (b1 b0 : Byte) : readBe16 b1 b0 < 65536 := by
  have := b1.isLt
  have := b0.isLt
  unfold readBe16
  omega

/-- A number whose two-byte image stands at `i` is read back there. -/
theorem readBe16_of_slice {b : Bytes} {i v : Nat} (h : slice b i (i + 2) = be16 v) (hv : v < 65536) :
    readBe16 (byteAt b i) (byteAt b (i + 1)) = v := by
  have high : byteAt b i = BitVec.ofNat 8 (v / 256) := byteAt_of_slice (k := 0) h (by omega)
  have low : byteAt b (i + 1) = BitVec.ofNat 8 v := byteAt_of_slice (k := 1) h (by omega)
  rw [high, low, readBe16_be16 hv]

/-- A flags-and-length field gives its length, and 7 in its high nibble (R52). -/
theorem lengthField_of_slice {b : Bytes} {i l : Nat} (h : slice b i (i + 2) = be16 (flagsAndLength l)) (hl : l < 4096) :
    lengthField b i = l ∧ (byteAt b i).toNat / 16 = 7 := by
  have hread : readBe16 (byteAt b i) (byteAt b (i + 1)) = 7 * 4096 + l :=
    readBe16_of_slice h (by omega)
  have hlow := (byteAt b (i + 1)).isLt
  rw [lengthField, hread]
  rw [readBe16] at hread
  omega

/-! ### The fields of a packet, whatever the wire constants -/

section
variable (w : WireConstants) {cid name64 : Bytes} (hc : cid.length = 16) (hn : name64.length = 64)
  (prio seq : Byte) (univ : Nat) (pay : Bytes)
include hc

theorem slice_root (i : Nat) {j : Nat} (h : j ≤ 38) :
    slice (packetLayout w cid name64 prio seq univ pay) i j = slice (rootLayout w pay.length cid) i j := by
  rw [packetLayout, slice_append_left (by rw [rootLayout_length w _ hc]; exact h)]

/-- Bytes 16 and 17, the root layer's length (R52). -/
theorem slice_packetLayout_rootLength :
    slice (packetLayout w cid name64 prio seq univ pay) 16 (16 + 2) = be16 (flagsAndLength (110 + pay.length)) := by
  rw [slice_root w hc prio seq univ pay 16 (by omega), rootLayout, slice_append_left (by simp),
    slice_append_left (by simp), slice_append_right (by simp)]
  simpa using slice_zero_of_length (be16_length _)

/-- Bytes 22 to 37, the CID (R56). -/
theorem slice_packetLayout_cid : slice (packetLayout w cid name64 prio seq univ pay) 22 38 = cid := by
  rw [slice_root w hc prio seq univ pay 22 (by omega), rootLayout, slice_append_right (by simp)]
  simpa using slice_zero_of_length hc

include hn

theorem slice_framing {i j : Nat} (h : 38 ≤ i) (h' : j ≤ 115) :
    slice (packetLayout w cid name64 prio seq univ pay) i j =
      slice (framingLayout w pay.length name64 prio seq univ) (i - 38) (j - 38) := by
  rw [packetLayout, slice_append_right (by rw [rootLayout_length w _ hc]; exact h), rootLayout_length w _ hc,
    slice_append_left (by rw [framingLayout_length w _ hn]; omega)]

/-- Bytes 38 and 39, the framing layer's length (R52). -/
theorem slice_packetLayout_framingLength :
    slice (packetLayout w cid name64 prio seq univ pay) 38 (38 + 2) = be16 (flagsAndLength (88 + pay.length)) := by
  rw [slice_framing w hc hn prio seq univ pay (by omega) (by omega)]
  rfl

/-- Bytes 44 to 107, the name field (R58). -/
theorem slice_packetLayout_name : slice (packetLayout w cid name64 prio seq univ pay) 44 108 = name64 := by
  rw [slice_framing w hc hn prio seq univ pay (by omega) (by omega), framingLayout, slice_append_left (by simp [hn]),
    slice_append_right (by simp)]
  simpa using slice_zero_of_length hn

/-- Bytes 108 to 114, the fields behind the name (R59 to R64). -/
theorem slice_packetLayout_framingTail {i j : Nat} (h : 108 ≤ i) (h' : j ≤ 115) :
    slice (packetLayout w cid name64 prio seq univ pay) i j =
      slice [prio, 0#8, 0#8, seq, 0#8, BitVec.ofNat 8 (univ / 256), BitVec.ofNat 8 univ] (i - 108) (j - 108) := by
  rw [slice_framing w hc hn prio seq univ pay (by omega) h', framingLayout, slice_append_right (by simp [hn]; omega)]
  simp [hn, be16, Nat.sub_sub]

theorem slice_dmp {i : Nat} (h : 115 ≤ i) (j : Nat) :
    slice (packetLayout w cid name64 prio seq univ pay) i j =
      slice (dmpLayout w pay.length ++ pay) (i - 115) (j - 115) := by
  rw [packetLayout, slice_append_right (by rw [rootLayout_length w _ hc]; omega), rootLayout_length w _ hc,
    slice_append_right (by rw [framingLayout_length w _ hn]; omega), framingLayout_length w _ hn]
  congr 1

/-- Bytes 115 and 116, the DMP layer's length (R52). -/
theorem slice_packetLayout_dmpLength :
    slice (packetLayout w cid name64 prio seq univ pay) 115 (115 + 2) = be16 (flagsAndLength (11 + pay.length)) := by
  rw [slice_dmp w hc hn prio seq univ pay (by omega)]
  rfl

/-- Bytes 123 and 124, the property value count (R69). -/
theorem slice_packetLayout_count :
    slice (packetLayout w cid name64 prio seq univ pay) 123 (123 + 2) = be16 (pay.length + 1) := by
  rw [slice_dmp w hc hn prio seq univ pay (by omega)]
  rfl

/-- The slot data, from byte 126 to the end (R71). -/
theorem slice_packetLayout_pay :
    slice (packetLayout w cid name64 prio seq univ pay) 126 (126 + pay.length) = pay := by
  rw [slice_dmp w hc hn prio seq univ pay (by omega), slice_append_right (by simp), dmpLayout_length]
  exact slice_zero_of_length (by omega)

end

/-! ### What a reader gets back -/

/-- A name that fills its field stands in it as it is. -/
theorem nameField_of_length {name64 : Bytes} (hn : name64.length = 64) : nameField name64 = name64 := by
  simp [nameField, Config.nameWidth, hn, List.take_of_length_le]

/-- The reader of R75 gets the fields of a packet back. -/
theorem decodeFields_packetLayout (w : WireConstants) {cid name64 : Bytes} (hc : cid.length = 16)
    (hn : name64.length = 64) (prio seq : Byte) {univ : Nat} (hu : univ < 65536) {pay : Bytes} (hp : 1 ≤ pay.length) :
    decodeFields (packetLayout w cid name64 prio seq univ pay) =
      some (.e131DataPacket cid name64 prio seq univ pay) := by
  have hprio : byteAt (packetLayout w cid name64 prio seq univ pay) 108 = prio := by
    simpa [nameField_of_length hn, byteAt] using
      byteAt_packetLayout_framingTail w hc name64 prio seq univ pay (i := 108) (by omega) (by omega)
  have hseq : byteAt (packetLayout w cid name64 prio seq univ pay) 111 = seq := by
    simpa [nameField_of_length hn] using byteAt_packetLayout_seq w hc name64 prio seq univ pay
  have huniv : readBe16 (byteAt (packetLayout w cid name64 prio seq univ pay) 113)
      (byteAt (packetLayout w cid name64 prio seq univ pay) 114) = univ := by
    simpa [nameField_of_length hn] using readBe16_packetLayout_univ w hc name64 prio seq univ pay hu
  have hlength := packetLayout_length w hc hn prio seq univ pay
  rw [decodeFields, if_pos (by omega), slice_packetLayout_cid w hc, slice_packetLayout_name w hc hn, hprio, hseq, huniv,
    hlength, slice_packetLayout_pay w hc hn]

section
variable (w : WireConstants) {cid name64 : Bytes} (hc : cid.length = 16) (hn : name64.length = 64) (prio seq : Byte)
  (univ : Nat) {pay : Bytes} (hp : pay.length ≤ 512)
include hc hn hp

/-- The three flags-and-length fields of a packet and its count (R52, R69). -/
theorem lengthFields_packetLayout :
    (lengthField (packetLayout w cid name64 prio seq univ pay) 16 = 110 + pay.length
      ∧ (byteAt (packetLayout w cid name64 prio seq univ pay) 16).toNat / 16 = 7)
    ∧ (lengthField (packetLayout w cid name64 prio seq univ pay) 38 = 88 + pay.length
      ∧ (byteAt (packetLayout w cid name64 prio seq univ pay) 38).toNat / 16 = 7)
    ∧ (lengthField (packetLayout w cid name64 prio seq univ pay) 115 = 11 + pay.length
      ∧ (byteAt (packetLayout w cid name64 prio seq univ pay) 115).toNat / 16 = 7)
    ∧ readBe16 (byteAt (packetLayout w cid name64 prio seq univ pay) 123)
        (byteAt (packetLayout w cid name64 prio seq univ pay) 124) = pay.length + 1 :=
  ⟨lengthField_of_slice (slice_packetLayout_rootLength w hc prio seq univ pay) (by omega),
    lengthField_of_slice (slice_packetLayout_framingLength w hc hn prio seq univ pay) (by omega),
    lengthField_of_slice (slice_packetLayout_dmpLength w hc hn prio seq univ pay) (by omega),
    readBe16_of_slice (slice_packetLayout_count w hc hn prio seq univ pay) (by omega)⟩

/-- The lengths a packet states of itself agree with its length (R89). -/
theorem packetLengthsAgree_packetLayout (hp' : 1 ≤ pay.length) :
    packetLengthsAgree (packetLayout w cid name64 prio seq univ pay) = true := by
  have hlength := packetLayout_length w hc hn prio seq univ pay
  obtain ⟨⟨hroot, -⟩, ⟨hframing, -⟩, ⟨hdmp, -⟩, hcount⟩ := lengthFields_packetLayout w hc hn prio seq univ hp
  simp only [packetLengthsAgree, hlength, hroot, hframing, hdmp, hcount]
  simp; omega

end

/-! ### The row of the table: it selects the packets with the E1.31 constants -/

/-- The row's bytes of the root layer, offsets 0 to 37. -/
def rootRow : List (Byte × Byte) :=
  rowFixed [0x00#8, 0x10#8, 0x00#8, 0x00#8]
    ++ rowFixed [0x41#8, 0x53#8, 0x43#8, 0x2D#8, 0x45#8, 0x31#8, 0x2E#8, 0x31#8, 0x37#8, 0x00#8, 0x00#8, 0x00#8]
    ++ rowFlags ++ rowFixed [0x00#8, 0x00#8, 0x00#8, 0x04#8] ++ rowFree 16

/-- The row's bytes behind the name field, offsets 108 to 114. -/
def framingTailRow : List (Byte × Byte) :=
  rowFree 1 ++ rowFixed [0x00#8, 0x00#8] ++ rowFree 1 ++ rowFixed [0x00#8] ++ rowFree 2

/-- The row's bytes of the framing layer, offsets 38 to 114. -/
def framingRow : List (Byte × Byte) :=
  rowFlags ++ rowFixed [0x00#8, 0x00#8, 0x00#8, 0x02#8] ++ rowFree 64 ++ framingTailRow

/-- The row's bytes of the DMP layer, offsets 115 to 125. -/
def dmpRow : List (Byte × Byte) :=
  rowFlags ++ rowFixed [0x02#8, 0xA1#8, 0x00#8, 0x00#8, 0x00#8, 0x01#8] ++ rowFree 2 ++ rowFixed [0x00#8]

theorem packetRow_eq_layers : packetRow = rootRow ++ (framingRow ++ dmpRow) := rfl

/-- The DMP layer with the E1.31 constants, cut where the row is cut. -/
theorem dmpLayout_e131 (l : Nat) : dmpLayout .e131 l =
    be16 (flagsAndLength (11 + l)) ++ [0x02#8, 0xA1#8, 0x00#8, 0x00#8, 0x00#8, 0x01#8] ++ be16 (l + 1) ++
      [0x00#8] := rfl

/-! A row that covers a string, and what each kind of row covers. -/

/-- The row is as long as the string and selects it. -/
def Covers (r : List (Byte × Byte)) (b : Bytes) : Prop := r.length = b.length ∧ rowSelects r b = true

/-- A row selects the strings that start with one it covers. -/
theorem rowSelects_iff_covers {r : List (Byte × Byte)} {b : Bytes} :
    rowSelects r b = true ↔ ∃ a c, b = a ++ c ∧ Covers r a := by
  have hstart {a : Bytes} (h : r.length = a.length) (c : Bytes) : rowSelects r (a ++ c) = rowSelects r a := by
    simpa [rowSelects] using rowSelects_append h [] c
  constructor
  · intro h
    have hlen : r.length = (b.take r.length).length := (List.length_take_of_le (length_of_rowSelects h)).symm
    have hb := List.take_append_drop r.length b
    rw [← hb, hstart hlen] at h
    exact ⟨_, _, hb.symm, hlen, h⟩
  · rintro ⟨a, c, rfl, hlen, h⟩
    rw [hstart hlen, h]

theorem covers_append_iff {r r' : List (Byte × Byte)} {b : Bytes} :
    Covers (r ++ r') b ↔ ∃ a c, b = a ++ c ∧ Covers r a ∧ Covers r' c := by
  constructor
  · rintro ⟨hlen, h⟩
    rw [List.length_append] at hlen
    have htake : r.length = (b.take r.length).length := by simp; omega
    rw [← List.take_append_drop r.length b, rowSelects_append htake, Bool.and_eq_true] at h
    exact ⟨_, _, (List.take_append_drop r.length b).symm, ⟨htake, h.1⟩, by simp; omega, h.2⟩
  · rintro ⟨a, c, rfl, ⟨hlen, h⟩, hlen', h'⟩
    exact ⟨by simp [hlen, hlen'], by rw [rowSelects_append hlen, h, h']; rfl⟩

theorem covers_rowFixed_iff {v b : Bytes} : Covers (rowFixed v) b ↔ b = v := by
  constructor
  · rintro ⟨hlen, h⟩
    rw [rowFixed_length] at hlen
    exact (rowSelects_fixed hlen).mp h
  · rintro rfl
    exact ⟨rowFixed_length b, (rowSelects_fixed rfl).mpr rfl⟩

theorem covers_rowFree_iff {n : Nat} {b : Bytes} : Covers (rowFree n) b ↔ b.length = n := by
  constructor
  · rintro ⟨hlen, -⟩
    rw [← hlen, rowFree_length]
  · rintro rfl
    exact ⟨rowFree_length _, rowSelects_free⟩

theorem covers_rowFlags_iff {b : Bytes} : Covers rowFlags b ↔ ∃ l, l < 4096 ∧ b = be16 (flagsAndLength l) := by
  constructor
  · rintro ⟨hlen, h⟩
    obtain ⟨x, y, rfl⟩ := List.length_eq_two.mp hlen.symm
    have hnibble := (rowSelects_flags x y).mp h
    have hvalue : flagsAndLength (readBe16 x y % 4096) = readBe16 x y := by
      show 7 * 4096 + readBe16 x y % 4096 = readBe16 x y
      omega
    exact ⟨readBe16 x y % 4096, Nat.mod_lt _ (by omega), by rw [hvalue, be16_readBe16]⟩
  · rintro ⟨l, hl, rfl⟩
    have hread := readBe16_be16 (v := flagsAndLength l) (show 7 * 4096 + l < 65536 by omega)
    refine ⟨rfl, (rowSelects_flags _ _).mpr ?_⟩
    rw [hread]
    show (7 * 4096 + l) / 4096 = 7
    omega

theorem Covers.append {r r' : List (Byte × Byte)} {a c : Bytes} (h : Covers r a) (h' : Covers r' c) :
    Covers (r ++ r') (a ++ c) :=
  covers_append_iff.mpr ⟨a, c, rfl, h, h'⟩

theorem covers_fixed (v : Bytes) : Covers (rowFixed v) v := covers_rowFixed_iff.mpr rfl

theorem covers_free {n : Nat} {b : Bytes} (h : b.length = n) : Covers (rowFree n) b := covers_rowFree_iff.mpr h

theorem covers_flags {l : Nat} (h : l < 4096) : Covers rowFlags (be16 (flagsAndLength l)) :=
  covers_rowFlags_iff.mpr ⟨l, h, rfl⟩

/-! The row covers the layers of a packet. -/

section
variable {l : Nat} (hl : l ≤ 512)
include hl

theorem covers_rootLayout {cid : Bytes} (hc : cid.length = 16) : Covers rootRow (rootLayout .e131 l cid) :=
  ((((covers_fixed _).append (covers_fixed _)).append (covers_flags (by omega))).append (covers_fixed _)).append
    (covers_free hc)

theorem covers_framingLayout {name64 : Bytes} (hn : name64.length = 64) (prio seq : Byte) (univ : Nat) :
    Covers framingRow (framingLayout .e131 l name64 prio seq univ) := by
  have htail : Covers framingTailRow ([prio] ++ [0x00#8, 0x00#8] ++ [seq] ++ [0x00#8] ++ be16 univ) :=
    ((((covers_free List.length_singleton).append (covers_fixed _)).append (covers_free List.length_singleton)).append
      (covers_fixed _)).append (covers_free (be16_length univ))
  exact (((covers_flags (by omega)).append (covers_fixed _)).append (covers_free hn)).append htail

theorem covers_dmpLayout : Covers dmpRow (dmpLayout .e131 l) := by
  rw [dmpRow, dmpLayout_e131]
  exact (((covers_flags (by omega)).append (covers_fixed _)).append (covers_free (be16_length _))).append
    (covers_fixed _)

end

/-- The row selects every packet with the E1.31 constants. -/
theorem rowSelects_packetLayout {cid name64 : Bytes} (hc : cid.length = 16) (hn : name64.length = 64)
    (prio seq : Byte) (univ : Nat) {pay : Bytes} (hp : pay.length ≤ 512) :
    rowSelects packetRow (packetLayout .e131 cid name64 prio seq univ pay) = true := by
  have hlayers := (covers_rootLayout hp hc).append
    ((covers_framingLayout hp hn prio seq univ).append (covers_dmpLayout hp))
  refine rowSelects_iff_covers.mpr ⟨_, pay, ?_, hlayers⟩
  simp only [packetLayout, List.append_assoc]

/-! What the row covers is a layer of a packet, once its length field says so. -/

theorem lengthField_flags {l : Nat} (h : l < 4096) (c : Bytes) : lengthField (be16 (flagsAndLength l) ++ c) 0 = l :=
  (lengthField_of_slice (slice_zero_of_length rfl) h).1

theorem lengthField_append_left {a : Bytes} {i : Nat} (h : i + 1 < a.length) (b : Bytes) :
    lengthField (a ++ b) i = lengthField a i := by
  rw [lengthField, byteAt_append_left (by omega), byteAt_append_left h, lengthField]

theorem lengthField_append_right {a : Bytes} {i : Nat} (h : a.length ≤ i) (b : Bytes) :
    lengthField (a ++ b) i = lengthField b (i - a.length) := by
  rw [lengthField, byteAt_append_right h, byteAt_append_right (by omega), lengthField, Nat.sub_add_comm h]

section
variable {l : Nat} {b : Bytes}

theorem eq_rootLayout_of_covers (h : Covers rootRow b) (hlength : lengthField b 16 = 110 + l) :
    ∃ cid, cid.length = 16 ∧ b = rootLayout .e131 l cid := by
  simp only [rootRow, covers_append_iff, covers_rowFixed_iff, covers_rowFlags_iff, covers_rowFree_iff] at h
  obtain ⟨_, cid, rfl, ⟨_, _, rfl, ⟨_, _, rfl, ⟨_, _, rfl, rfl, rfl⟩, x, hx, rfl⟩, rfl⟩, hc⟩ := h
  obtain rfl : x = 110 + l := (lengthField_flags hx ([0x00#8, 0x00#8, 0x00#8, 0x04#8] ++ cid)).symm.trans hlength
  exact ⟨cid, hc, rfl⟩

theorem eq_of_covers_framingTailRow (h : Covers framingTailRow b) :
    ∃ prio seq univ, univ < 65536 ∧ b = [prio] ++ [0x00#8, 0x00#8] ++ [seq] ++ [0x00#8] ++ be16 univ := by
  simp only [framingTailRow, covers_append_iff, covers_rowFixed_iff, covers_rowFree_iff, List.length_eq_one_iff,
    List.length_eq_two] at h
  obtain ⟨_, _, rfl, ⟨_, _, rfl, ⟨_, _, rfl, ⟨_, _, rfl, ⟨prio, rfl⟩, rfl⟩, seq, rfl⟩, rfl⟩, u1, u0, rfl⟩ := h
  exact ⟨prio, seq, readBe16 u1 u0, readBe16_lt u1 u0, by rw [be16_readBe16]⟩

theorem eq_framingLayout_of_covers (h : Covers framingRow b) (hlength : lengthField b 0 = 88 + l) :
    ∃ name64 prio seq univ, name64.length = 64 ∧ univ < 65536
      ∧ b = framingLayout .e131 l name64 prio seq univ := by
  rw [framingRow, covers_append_iff] at h
  obtain ⟨_, _, rfl, h, htail⟩ := h
  obtain ⟨prio, seq, univ, hu, rfl⟩ := eq_of_covers_framingTailRow htail
  simp only [covers_append_iff, covers_rowFixed_iff, covers_rowFlags_iff, covers_rowFree_iff] at h
  obtain ⟨_, name64, rfl, ⟨_, _, rfl, ⟨x, hx, rfl⟩, rfl⟩, hn⟩ := h
  obtain rfl : x = 88 + l := (lengthField_flags hx _).symm.trans hlength
  exact ⟨name64, prio, seq, univ, hn, hu, rfl⟩

theorem eq_dmpLayout_of_covers (h : Covers dmpRow b) (hlength : lengthField b 0 = 11 + l)
    (hcount : readBe16 (byteAt b 8) (byteAt b 9) = l + 1) : b = dmpLayout .e131 l := by
  simp only [dmpRow, covers_append_iff, covers_rowFixed_iff, covers_rowFlags_iff, covers_rowFree_iff,
    List.length_eq_two] at h
  obtain ⟨_, _, rfl, ⟨_, _, rfl, ⟨_, _, rfl, ⟨x, hx, rfl⟩, rfl⟩, c1, c0, rfl⟩, rfl⟩ := h
  obtain rfl : x = 11 + l := (lengthField_flags hx _).symm.trans hlength
  have hc : [c1, c0] = be16 (l + 1) := by rw [← hcount]; exact (be16_readBe16 c1 c0).symm
  rw [hc, dmpLayout_e131]

end

/-- What the lengths of a string cut into the layers of R50 must be (R52, R69, R89). -/
theorem lengths_of_packetLengthsAgree {root framing dmp pay : Bytes} (hroot : root.length = 38)
    (hframing : framing.length = 77) (hdmp : dmp.length = 11)
    (h : packetLengthsAgree (root ++ (framing ++ (dmp ++ pay))) = true) :
    1 ≤ pay.length ∧ pay.length ≤ 512 ∧ lengthField root 16 = 110 + pay.length
      ∧ lengthField framing 0 = 88 + pay.length ∧ lengthField dmp 0 = 11 + pay.length
      ∧ readBe16 (byteAt dmp 8) (byteAt dmp 9) = pay.length + 1 := by
  have hlength : (root ++ (framing ++ (dmp ++ pay))).length = 126 + pay.length := by simp; omega
  simp only [packetLengthsAgree, hlength, Nat.add_sub_cancel_left, Bool.and_eq_true, decide_eq_true_eq,
    beq_iff_eq] at h
  obtain ⟨⟨⟨⟨⟨hmin, hmax⟩, hrootField⟩, hframingField⟩, hdmpField⟩, hcount⟩ := h
  simp (disch := simp [hroot, hframing, hdmp]) only [lengthField_append_left, lengthField_append_right,
    byteAt_append_left, byteAt_append_right, hroot, hframing] at hrootField hframingField hdmpField hcount
  exact ⟨by omega, by omega, hrootField, hframingField, hdmpField, hcount⟩

/-- A string that the row selects, and whose lengths agree, is a packet with the E1.31 constants. -/
theorem eq_packetLayout_of_selected {b : Bytes} (hsel : rowSelects packetRow b = true)
    (hlengths : packetLengthsAgree b = true) :
    ∃ cid name64 prio seq univ pay, (Instr.e131DataPacket cid name64 prio seq univ pay).wellFormed = true
      ∧ b = packetLayout .e131 cid name64 prio seq univ pay := by
  obtain ⟨_, pay, rfl, hcovers⟩ := rowSelects_iff_covers.mp hsel
  rw [packetRow_eq_layers] at hcovers
  obtain ⟨root, _, rfl, hroot, hcovers⟩ := covers_append_iff.mp hcovers
  obtain ⟨framing, dmp, rfl, hframing, hdmp⟩ := covers_append_iff.mp hcovers
  rw [List.append_assoc, List.append_assoc] at hlengths ⊢
  obtain ⟨hmin, hmax, hrootField, hframingField, hdmpField, hcount⟩ :=
    lengths_of_packetLengthsAgree hroot.1.symm hframing.1.symm hdmp.1.symm hlengths
  obtain ⟨cid, hc, rfl⟩ := eq_rootLayout_of_covers hroot hrootField
  obtain ⟨name64, prio, seq, univ, hn, hu, rfl⟩ := eq_framingLayout_of_covers hframing hframingField
  obtain rfl := eq_dmpLayout_of_covers hdmp hdmpField hcount
  exact ⟨cid, name64, prio, seq, univ, pay, by simp [Instr.wellFormed, hc, hn, hu, hmin, hmax], rfl⟩

/-! ### The packet, decoded and encoded -/

/-- The decoder reads a string that starts with `0x00` as a packet exactly when it is the encoding of one (R50, R75). -/
theorem decodePacket_eq_ok_iff {b : Bytes} {i : Instr} : decodePacket b = .ok i ↔
    ∃ cid name64 prio seq univ pay, i = .e131DataPacket cid name64 prio seq univ pay ∧ i.wellFormed = true
      ∧ encode i = b := by
  have decodes {cid name64 : Bytes} {prio seq : Byte} {univ : Nat} {pay : Bytes}
      (hwf : (Instr.e131DataPacket cid name64 prio seq univ pay).wellFormed = true) :
      decodePacket (packetLayout .e131 cid name64 prio seq univ pay) =
        .ok (.e131DataPacket cid name64 prio seq univ pay) := by
    simp only [Instr.wellFormed, Bool.and_eq_true, beq_iff_eq, decide_eq_true_eq] at hwf
    obtain ⟨⟨⟨⟨hc, hn⟩, hu⟩, hmin⟩, hmax⟩ := hwf
    rw [decodePacket, rowSelects_packetLayout hc hn prio seq univ hmax,
      packetLengthsAgree_packetLayout .e131 hc hn prio seq univ hmax hmin,
      decodeFields_packetLayout .e131 hc hn prio seq hu hmin]
    rfl
  constructor
  · intro h
    by_cases hsel : (rowSelects packetRow b && packetLengthsAgree b) = true
    · rw [Bool.and_eq_true] at hsel
      obtain ⟨cid, name64, prio, seq, univ, pay, hwf, rfl⟩ := eq_packetLayout_of_selected hsel.1 hsel.2
      obtain rfl := Except.ok.inj ((decodes hwf).symm.trans h)
      exact ⟨cid, name64, prio, seq, univ, pay, rfl, hwf, rfl⟩
    · rw [decodePacket, if_neg hsel] at h
      cases h
  · rintro ⟨cid, name64, prio, seq, univ, pay, rfl, hwf, rfl⟩
    exact decodes hwf

end Sys2Proof.Machine
end

section
/-! PROOFS. The family `30_encoding`: the decoder gives back what the encoder wrote. -/

namespace Sys2Proof.Machine

/-! ### Numbers and flags read from bytes -/

theorem readBe32_lt (b3 b2 b1 b0 : Byte) : readBe32 b3 b2 b1 b0 < 2 ^ 32 := by
  have := b3.isLt
  have := b2.isLt
  have := b1.isLt
  have := b0.isLt
  unfold readBe32
  omega

/-- A flags byte of a send with no reserved bit is the one the encoder writes (R77). -/
theorem flagsByte_send {flags : Byte} (h : flags &&& 0xFE#8 = 0#8) :
    flagsByte (flags.getLsbD 0) false false = flags := by
  revert flags; decide

/-- A flags byte of `BUILD` with no reserved bit is the one the encoder writes (R78). -/
theorem flagsByte_build {flags : Byte} (h : flags &&& 0xF8#8 = 0#8) :
    flagsByte (flags.getLsbD 0) (flags.getLsbD 1) (flags.getLsbD 2) = flags := by
  revert flags; decide

theorem isSome_prioOperand (flags prio : Byte) : (prioOperand flags prio).isSome = flags.getLsbD 0 := by
  unfold prioOperand
  cases flags.getLsbD 0 <;> rfl

/-! ### Decoding an encoded instruction a well-formed instruction -/

/-- A word is read back from its four-byte image. -/
theorem ofNat_readBe32_be32 (n : BitVec 32) :
    BitVec.ofNat 32 (readBe32 (BitVec.ofNat 8 (n.toNat / 2 ^ 24)) (BitVec.ofNat 8 (n.toNat / 2 ^ 16))
      (BitVec.ofNat 8 (n.toNat / 256)) (BitVec.ofNat 8 n.toNat)) = n := by
  rw [readBe32_be32 n.isLt, BitVec.ofNat_toNat, BitVec.setWidth_eq]

theorem decode_encode_setMcastIf {selector : IfSelector} (h : selector.wellFormed = true) :
    decode (encode (.setMcastIf selector)) = .ok (.setMcastIf selector) := by
  cases selector with
  | byIndex n => exact congrArg (fun k => Except.ok (Instr.setMcastIf (.byIndex k))) (ofNat_readBe32_be32 n)
  | byIPv4 a =>
    simp only [IfSelector.wellFormed, beq_iff_eq] at h
    simp [encode, encodeSelector, decodeSetMcastIf, len8, h]
  | byIPv6 a =>
    simp only [IfSelector.wellFormed, beq_iff_eq] at h
    simp [encode, encodeSelector, decodeSetMcastIf, len8, h]
  | byOther kind sel =>
    simp only [IfSelector.wellFormed, Bool.and_eq_true, decide_eq_true_eq] at h
    obtain ⟨hkind, hlen⟩ := h
    have h0 : kind ≠ 0#8 := by rintro rfl; simp at hkind
    have h1 : kind ≠ 1#8 := by rintro rfl; simp at hkind
    have h2 : kind ≠ 2#8 := by rintro rfl; simp at hkind
    simp [encode, encodeSelector, decodeSetMcastIf, h0, h1, h2, len8_toNat hlen]

/-- An absent operand of `BUILD` has no bytes, and its flag tells it from an empty one (R78). -/
theorem ite_isSome_getD (o : Option Bytes) : (if o.isSome = true then some (o.getD []) else none) = o := by
  cases o <;> rfl

theorem decode_encode_build {univ : Nat} {name cid : Option Bytes} (seq : Byte) {pay : Bytes} (prio : Option Byte)
    (hu : univ < 2 ^ 32) (hn : (name.getD []).length < 65536) (hc : (cid.getD []).length < 256)
    (hp : pay.length < 65536) :
    decode (encode (.build univ name cid seq pay prio)) = .ok (.build univ name cid seq pay prio) := by
  have hcid : ¬ (cid.isSome = false ∧ len8 (cid.getD []) ≠ 0#8) := by cases cid <;> simp [len8]
  have hname : ¬ (name.isSome = false ∧ (name.getD []).length ≠ 0) := by cases name <;> simp
  simp only [encode, be32, be16, List.cons_append, List.nil_append, List.append_assoc, decode_build, decodeBuild,
    flagsByte_reserved, flagsByte_cid, flagsByte_name, readBe16_be16 hn, readBe16_be16 hp, readBe32_be32 hu,
    len8_toNat hc, prioOperand_flagsByte]
  rw [if_neg (not_ne_iff.mpr rfl), if_neg hcid, if_neg hname, if_neg (by simp [Nat.add_assoc])]
  simp [ite_isSome_getD, ← List.drop_drop]

/-- Encoding loses nothing: the decoder gives back every well-formed instruction. -/
theorem decode_encode {i : Instr} (h : i.wellFormed = true) : decode (encode i) = .ok i := by
  cases i with
  | sendMcast univ pay prio =>
    simp only [Instr.wellFormed, Bool.and_eq_true, decide_eq_true_eq] at h
    obtain ⟨hu, hp⟩ := h
    simp [encode, be32, be16, decodeSendMcast, readBe16_be16 hp]
    exact readBe32_be32 hu
  | sendUcast host univ pay prio =>
    simp only [Instr.wellFormed, Bool.and_eq_true, decide_eq_true_eq] at h
    obtain ⟨⟨hh, hu⟩, hp⟩ := h
    simp [encode, be32, be16, decodeSendUcast, readBe16_be16 hp, len8_toNat hh]
    exact readBe32_be32 hu
  | build univ name cid seq pay prio =>
    simp only [Instr.wellFormed, Bool.and_eq_true, decide_eq_true_eq] at h
    obtain ⟨⟨⟨hu, hn⟩, hc⟩, hp⟩ := h
    exact decode_encode_build seq prio hu hn hc hp
  | mcastAddr univ =>
    simp only [Instr.wellFormed, decide_eq_true_eq] at h
    simp [encode, be32, decodeMcastAddr]
    exact readBe32_be32 h
  | setMcastIf selector => exact decode_encode_setMcastIf h
  | teardown => rfl
  | e131DataPacket cid name prio seq univ pay =>
    exact decodePacket_eq_ok_iff.mpr ⟨cid, name, prio, seq, univ, pay, rfl, h, rfl⟩

/-- Settles O1, row by row of the table. -/
theorem decodeOfEncode : Obligations.DecodeOfEncode := fun _ => decode_encode

end Sys2Proof.Machine
end

section
/-! PROOFS. The family `30_encoding`: what the decoder refuses, and encoding what it accepts. -/

namespace Sys2Proof.Machine

/-! ### The decoder's checks -/

/-- The decoder's answer is a refusal. -/
def Refuses (x : Except Reserved Instr) : Prop := ∃ r, x = .error r

theorem refuses_error {r : Reserved} : Refuses (.error r) := ⟨r, rfl⟩

theorem not_refuses_iff {x : Except Reserved Instr} : ¬ Refuses x ↔ ∃ i, x = .ok i := by
  cases x <;> simp [Refuses]

section
variable {c : Prop} [Decidable c] {r : Reserved} {x : Except Reserved Instr} {i : Instr}

theorem not_refuses_ok : ¬ Refuses (.ok i) := not_refuses_iff.mpr ⟨i, rfl⟩

/-- A check refuses when it fails or when what comes after it refuses. -/
theorem refuses_ite_error_iff : Refuses (if c then .error r else x) ↔ c ∨ Refuses x := by
  by_cases h : c <;> simp [h, refuses_error]

theorem refuses_ite_ok_iff : Refuses (if c then .ok i else x) ↔ ¬ c ∧ Refuses x := by
  by_cases h : c <;> simp [h, not_refuses_ok]

/-- What is accepted has passed the check. -/
theorem ite_error_eq_ok_iff : (if c then .error r else x) = .ok i ↔ ¬ c ∧ x = .ok i := by
  by_cases h : c <;> simp [h]

end

/-! The bodies long enough for the fields of their format, and the others. -/

theorem exists_nine_bytes {b : Bytes} (h : 9 ≤ b.length) :
    ∃ b1 b2 b3 b4 b5 b6 b7 b8 b9 rest, b = b1 :: b2 :: b3 :: b4 :: b5 :: b6 :: b7 :: b8 :: b9 :: rest :=
  match b, h with
  | _ :: _ :: _ :: _ :: _ :: _ :: _ :: _ :: _ :: _, _ => ⟨_, _, _, _, _, _, _, _, _, _, rfl⟩

theorem exists_twelve_bytes {b : Bytes} (h : 12 ≤ b.length) :
    ∃ b1 b2 b3 b4 b5 b6 b7 b8 b9 b10 b11 b12 rest,
      b = b1 :: b2 :: b3 :: b4 :: b5 :: b6 :: b7 :: b8 :: b9 :: b10 :: b11 :: b12 :: rest :=
  match b, h with
  | _ :: _ :: _ :: _ :: _ :: _ :: _ :: _ :: _ :: _ :: _ :: _ :: _, _ => ⟨_, _, _, _, _, _, _, _, _, _, _, _, _, rfl⟩

theorem exists_two_bytes {b : Bytes} (h : 2 ≤ b.length) : ∃ b1 b2 rest, b = b1 :: b2 :: rest :=
  match b, h with
  | _ :: _ :: _, _ => ⟨_, _, _, rfl⟩

section
variable {b : Bytes}

theorem decodeSendMcast_of_short (h : b.length < 9) : decodeSendMcast b = .error .length := by
  unfold decodeSendMcast
  split
  · simp only [List.length_cons] at h; omega
  · rfl

theorem decodeSendUcast_of_short (h : b.length < 9) : decodeSendUcast b = .error .length := by
  unfold decodeSendUcast
  split
  · simp only [List.length_cons] at h; omega
  · rfl

theorem decodeBuild_of_short (h : b.length < 12) : decodeBuild b = .error .length := by
  unfold decodeBuild
  split
  · simp only [List.length_cons] at h; omega
  · rfl

theorem decodeMcastAddr_of_length_ne (h : b.length ≠ 4) : decodeMcastAddr b = .error .length := by
  unfold decodeMcastAddr
  split
  · simp at h
  · rfl

theorem decodeSetMcastIf_of_short (h : b.length < 2) : decodeSetMcastIf b = .error .length := by
  unfold decodeSetMcastIf
  split
  · simp only [List.length_cons] at h; omega
  · rfl

end

/-! ### What is refused is what R82 reserves, format by format -/

theorem byteAt_cons_zero (x : Byte) (b : Bytes) : byteAt (x :: b) 0 = x := rfl
theorem byteAt_cons_succ (x : Byte) (b : Bytes) (i : Nat) : byteAt (x :: b) (i + 1) = byteAt b i := rfl

section
variable (b : Bytes)

/-! The clause of R82 for each opcode, of the bytes behind it. -/

theorem reserved_sendMcast_iff : ReservedDescriptor (0x01#8 :: b) ↔
    byteAt b 0 &&& 0xFE#8 ≠ 0#8 ∨ byteAt b 2 ≠ 0#8 ∨ b.length + 1 < 10
      ∨ b.length + 1 ≠ 10 + (byteAt b 2).toNat + readBe16 (byteAt b 7) (byteAt b 8) := by
  simp [ReservedDescriptor, byteAt_cons_zero, byteAt_cons_succ]

theorem reserved_sendUcast_iff : ReservedDescriptor (0x02#8 :: b) ↔
    byteAt b 0 &&& 0xFE#8 ≠ 0#8 ∨ b.length + 1 < 10
      ∨ b.length + 1 ≠ 10 + (byteAt b 2).toNat + readBe16 (byteAt b 7) (byteAt b 8) := by
  simp [ReservedDescriptor, byteAt_cons_zero, byteAt_cons_succ]

theorem reserved_build_iff : ReservedDescriptor (0x03#8 :: b) ↔
    byteAt b 0 &&& 0xF8#8 ≠ 0#8 ∨ ((byteAt b 0).getLsbD 1 = false ∧ byteAt b 9 ≠ 0#8)
      ∨ ((byteAt b 0).getLsbD 2 = false ∧ readBe16 (byteAt b 10) (byteAt b 11) ≠ 0) ∨ b.length + 1 < 13
      ∨ b.length + 1 ≠ 13 + (byteAt b 9).toNat + readBe16 (byteAt b 10) (byteAt b 11)
          + readBe16 (byteAt b 7) (byteAt b 8) := by
  simp [ReservedDescriptor, byteAt_cons_zero, byteAt_cons_succ]

theorem reserved_mcastAddr_iff : ReservedDescriptor (0x04#8 :: b) ↔ b.length ≠ 4 := by
  simp [ReservedDescriptor, byteAt_cons_zero]

theorem reserved_setMcastIf_iff : ReservedDescriptor (0x05#8 :: b) ↔
    (byteAt b 0 = 0#8 ∧ byteAt b 1 ≠ 4#8) ∨ (byteAt b 0 = 1#8 ∧ byteAt b 1 ≠ 4#8)
      ∨ (byteAt b 0 = 2#8 ∧ byteAt b 1 ≠ 16#8) ∨ b.length + 1 < 3 ∨ b.length + 1 ≠ 3 + (byteAt b 1).toNat := by
  simp [ReservedDescriptor, byteAt_cons_zero, byteAt_cons_succ]

theorem reserved_teardown_iff : ReservedDescriptor (0x06#8 :: b) ↔ b ≠ [] := by
  simp [ReservedDescriptor, byteAt_cons_zero]

/-! The decoder of each format refuses by that clause. -/

theorem refuses_sendMcast_iff : Refuses (decodeSendMcast b) ↔ ReservedDescriptor (0x01#8 :: b) := by
  rw [reserved_sendMcast_iff]
  rcases Nat.lt_or_ge b.length 9 with hshort | hlong
  · rw [decodeSendMcast_of_short hshort]
    exact iff_of_true refuses_error (by omega)
  · obtain ⟨flags, prio, h, u3, u2, u1, u0, l1, l0, rest, rfl⟩ := exists_nine_bytes hlong
    simp only [decodeSendMcast, refuses_ite_error_iff, not_refuses_ok, or_false, byteAt_cons_zero, byteAt_cons_succ,
      List.length_cons]
    refine or_congr_right (or_congr_right' fun hh => ?_)
    rw [not_not.mp hh, BitVec.toNat_ofNat]
    omega

theorem refuses_sendUcast_iff : Refuses (decodeSendUcast b) ↔ ReservedDescriptor (0x02#8 :: b) := by
  rw [reserved_sendUcast_iff]
  rcases Nat.lt_or_ge b.length 9 with hshort | hlong
  · rw [decodeSendUcast_of_short hshort]
    exact iff_of_true refuses_error (by omega)
  · obtain ⟨flags, prio, h, u3, u2, u1, u0, l1, l0, rest, rfl⟩ := exists_nine_bytes hlong
    simp only [decodeSendUcast, refuses_ite_error_iff, not_refuses_ok, or_false, byteAt_cons_zero, byteAt_cons_succ,
      List.length_cons]
    refine or_congr_right ?_
    omega

theorem refuses_build_iff : Refuses (decodeBuild b) ↔ ReservedDescriptor (0x03#8 :: b) := by
  rw [reserved_build_iff]
  rcases Nat.lt_or_ge b.length 12 with hshort | hlong
  · rw [decodeBuild_of_short hshort]
    exact iff_of_true refuses_error (by omega)
  · obtain ⟨flags, prio, seq, u3, u2, u1, u0, l1, l0, c, n1, n0, rest, rfl⟩ := exists_twelve_bytes hlong
    simp only [decodeBuild, refuses_ite_error_iff, not_refuses_ok, or_false, byteAt_cons_zero, byteAt_cons_succ,
      List.length_cons]
    refine or_congr_right (or_congr_right (or_congr_right ?_))
    omega

theorem refuses_mcastAddr_iff : Refuses (decodeMcastAddr b) ↔ ReservedDescriptor (0x04#8 :: b) := by
  rw [reserved_mcastAddr_iff]
  by_cases h : b.length = 4
  · obtain ⟨u3, u2, u1, u0, rfl⟩ := List.length_eq_four.mp h
    exact iff_of_false not_refuses_ok (not_not.mpr h)
  · rw [decodeMcastAddr_of_length_ne h]
    exact iff_of_true refuses_error h

theorem refuses_setMcastIf_iff : Refuses (decodeSetMcastIf b) ↔ ReservedDescriptor (0x05#8 :: b) := by
  rw [reserved_setMcastIf_iff]
  rcases Nat.lt_or_ge b.length 2 with hshort | hlong
  · rw [decodeSetMcastIf_of_short hshort]
    exact iff_of_true refuses_error (by omega)
  · obtain ⟨kind, s, sel, rfl⟩ := exists_two_bytes hlong
    simp only [decodeSetMcastIf, refuses_ite_error_iff, refuses_ite_ok_iff, not_refuses_ok, and_false, or_false,
      byteAt_cons_zero, byteAt_cons_succ, List.length_cons, or_assoc]
    refine or_congr_right (or_congr_right (or_congr_right ?_))
    omega

theorem refuses_teardown_iff : Refuses (decodeTeardown b) ↔ ReservedDescriptor (0x06#8 :: b) := by
  rw [reserved_teardown_iff]
  cases b with
  | nil => exact iff_of_false not_refuses_ok (by simp)
  | cons x b => exact iff_of_true refuses_error (by simp)

end

theorem opcode_cases (op : Byte) :
    op = 0x00#8 ∨ op = 0x01#8 ∨ op = 0x02#8 ∨ op = 0x03#8 ∨ op = 0x04#8 ∨ op = 0x05#8 ∨ op = 0x06#8 ∨ 7 ≤ op.toNat := by
  revert op; decide

theorem decode_of_opcode_ge {op : Byte} (h : 7 ≤ op.toNat) (b : Bytes) : decode (op :: b) = .error .opcode := by
  have hne {k : Byte} (hk : k.toNat < 7) : op ≠ k := by rintro rfl; omega
  simp [decode, hne]

/-- Behind an opcode other than `0x00` the decoder refuses what R82 reserves. -/
theorem refuses_decode_cons_iff {op : Byte} (hop : op ≠ 0x00#8) (b : Bytes) :
    Refuses (decode (op :: b)) ↔ ReservedDescriptor (op :: b) := by
  rcases opcode_cases op with rfl | rfl | rfl | rfl | rfl | rfl | rfl | hge
  · exact absurd rfl hop
  · exact refuses_sendMcast_iff b
  · exact refuses_sendUcast_iff b
  · exact refuses_build_iff b
  · exact refuses_mcastAddr_iff b
  · exact refuses_setMcastIf_iff b
  · exact refuses_teardown_iff b
  · rw [decode_of_opcode_ge hge]
    exact iff_of_true refuses_error (.inr (.inr (.inl hge)))

/-- The byte string is a packet of R50 with the E1.31 constants. -/
def IsPacket (d : Bytes) : Prop :=
  ∃ cid name prio seq univ pay, (Instr.e131DataPacket cid name prio seq univ pay).wellFormed = true
    ∧ encode (.e131DataPacket cid name prio seq univ pay) = d

theorem not_refuses_of_isPacket {d : Bytes} (h : IsPacket d) : ¬ Refuses (decode d) := by
  obtain ⟨cid, name, prio, seq, univ, pay, hwf, rfl⟩ := h
  exact not_refuses_iff.mpr ⟨_, decode_encode hwf⟩

/-- The opcode `0x00` is reserved, and only a packet is read behind it. -/
theorem refuses_decode_zero_iff (b : Bytes) : Refuses (decode (0x00#8 :: b)) ↔ ¬ IsPacket (0x00#8 :: b) := by
  refine ⟨fun h hpacket => not_refuses_of_isPacket hpacket h, fun h => by_contra fun haccepts => h ?_⟩
  obtain ⟨i, hi⟩ := not_refuses_iff.mp haccepts
  obtain ⟨cid, name, prio, seq, univ, pay, rfl, hwf, henc⟩ := decodePacket_eq_ok_iff.mp hi
  exact ⟨cid, name, prio, seq, univ, pay, hwf, henc⟩

/-- Settles O5, opcode by opcode. -/
theorem decoderRefusesExactlyTheReserved : Obligations.DecoderRefusesExactlyTheReserved := by
  intro d
  show Refuses (decode d) ↔ ReservedDescriptor d ∧ ¬ IsPacket d
  have hpacket (h : Refuses (decode d)) : ¬ IsPacket d := fun hp => not_refuses_of_isPacket hp h
  cases d with
  | nil => exact iff_of_true refuses_error ⟨.inl rfl, hpacket refuses_error⟩
  | cons op b =>
    by_cases hop : op = 0x00#8
    · subst hop
      exact (refuses_decode_zero_iff b).trans (and_iff_right (.inr (.inl rfl))).symm
    · rw [← refuses_decode_cons_iff hop]
      exact (and_iff_left_of_imp hpacket).symm

/-! ### The answer to a reserved descriptor -/

/-- A reserved descriptor gets R82's answer, a packet among them. -/
theorem serveCommand_of_reserved {d : Bytes} (h : ReservedDescriptor d) (c : Nat) (s : State) :
    serveCommand c d s = .next (s.serving c).rejectReserved := by
  by_cases hpacket : IsPacket d
  · obtain ⟨cid, name, prio, seq, univ, pay, hwf, rfl⟩ := hpacket
    rw [serveCommand, decode_encode hwf]
    rfl
  · obtain ⟨r, hr⟩ := (decoderRefusesExactlyTheReserved d).mpr ⟨h, hpacket⟩
    rw [serveCommand, hr]

/-- Settles O9: the answer leaves every field of the block as it was. -/
theorem reservedDescriptorAnswered : Obligations.ReservedDescriptorAnswered := by
  intro s c d rest hnext hd
  refine ⟨_, (step_of_nextInput hnext).trans (serveCommand_of_reserved hd c _), rfl, ?_, rfl⟩
  exact ⟨rfl, rfl, rfl, rfl, rfl, rfl, rfl, rfl⟩

end Sys2Proof.Machine
end

section
/-! PROOFS. The family `30_encoding`: what decodes is well formed and encodes back. -/

namespace Sys2Proof.Machine

/-! ### Encoding a decoded descriptor -/

/-- The instruction is well formed and encodes to `d`, but for a priority byte that R77 says is ignored. -/
def EncodesBack (d : Bytes) (i : Instr) : Prop :=
  i.wellFormed = true ∧ (encode i = d ∨ ((byteAt d 1).getLsbD 0 = false ∧ encode i = d.set 2 0))

theorem encodesBack_of_eq {d : Bytes} {i : Instr} (hwf : i.wellFormed = true) (h : encode i = d) : EncodesBack d i :=
  ⟨hwf, .inl h⟩

/-- The encoder writes the priority byte of the descriptor when its flag is set, and `00` when it is not (R77). -/
theorem encodesBack_of_prioOperand {op flags prio : Byte} {t : Bytes} {i : Instr} (hwf : i.wellFormed = true)
    (h : encode i = op :: flags :: (prioOperand flags prio).getD 0#8 :: t) :
    EncodesBack (op :: flags :: prio :: t) i := by
  refine ⟨hwf, ?_⟩
  rw [h]
  cases hflag : flags.getLsbD 0 with
  | true => exact .inl (by rw [prioOperand, if_pos hflag]; rfl)
  | false => exact .inr ⟨hflag, by rw [prioOperand, hflag]; rfl⟩

theorem len8_eq_of_length {b : Bytes} {n : Byte} (h : b.length = n.toNat) : len8 b = n := by
  rw [len8, h, BitVec.ofNat_toNat, BitVec.setWidth_eq]

section
variable {b : Bytes} {i : Instr}

theorem encodesBack_sendMcast (h : decodeSendMcast b = .ok i) : EncodesBack (0x01#8 :: b) i := by
  rcases Nat.lt_or_ge b.length 9 with hshort | hlong
  · rw [decodeSendMcast_of_short hshort] at h
    cases h
  · obtain ⟨flags, prio, host, u3, u2, u1, u0, l1, l0, pay, rfl⟩ := exists_nine_bytes hlong
    simp only [decodeSendMcast, ite_error_eq_ok_iff, not_not, Except.ok.injEq] at h
    obtain ⟨hflags, rfl, hlen, rfl⟩ := h
    refine encodesBack_of_prioOperand ?_ ?_
    · simp only [Instr.wellFormed, hlen, readBe32_lt, readBe16_lt, decide_true, Bool.and_self]
    · simp only [encode, isSome_prioOperand, flagsByte_send hflags, be32_readBe32, hlen, be16_readBe16,
        List.cons_append, List.nil_append]

theorem encodesBack_sendUcast (h : decodeSendUcast b = .ok i) : EncodesBack (0x02#8 :: b) i := by
  rcases Nat.lt_or_ge b.length 9 with hshort | hlong
  · rw [decodeSendUcast_of_short hshort] at h
    cases h
  · obtain ⟨flags, prio, h8, u3, u2, u1, u0, l1, l0, rest, rfl⟩ := exists_nine_bytes hlong
    simp only [decodeSendUcast, ite_error_eq_ok_iff, not_not, Except.ok.injEq] at h
    obtain ⟨hflags, hlen, rfl⟩ := h
    have hhost : (rest.take h8.toNat).length = h8.toNat := List.length_take_of_le (by omega)
    have hpay : (rest.drop h8.toNat).length = readBe16 l1 l0 := by rw [List.length_drop]; omega
    refine encodesBack_of_prioOperand ?_ ?_
    · simp only [Instr.wellFormed, hhost, hpay, readBe32_lt, readBe16_lt, h8.isLt, decide_true, Bool.and_self]
    · simp only [encode, isSome_prioOperand, flagsByte_send hflags, len8_eq_of_length hhost, be32_readBe32, hpay,
        be16_readBe16, List.cons_append, List.nil_append, List.take_append_drop]

/-- An absent operand of `BUILD` reads as the bytes its length field leaves it: none. -/
theorem getD_operand {flag : Bool} {x : Bytes} (h : flag = false → x = []) :
    (if flag = true then some x else none).getD [] = x := by
  cases flag with
  | false => exact (h rfl).symm
  | true => rfl

theorem isSome_operand (flag : Bool) (x : Bytes) : (if flag = true then some x else none).isSome = flag := by
  cases flag <;> rfl

theorem encodesBack_build (h : decodeBuild b = .ok i) : EncodesBack (0x03#8 :: b) i := by
  rcases Nat.lt_or_ge b.length 12 with hshort | hlong
  · rw [decodeBuild_of_short hshort] at h
    cases h
  · obtain ⟨flags, prio, seq, u3, u2, u1, u0, l1, l0, c, n1, n0, rest, rfl⟩ := exists_twelve_bytes hlong
    simp only [decodeBuild, ite_error_eq_ok_iff, not_not, not_and, Except.ok.injEq] at h
    obtain ⟨hflags, hcid, hname, hlen, rfl⟩ := h
    have hcidLen : (rest.take c.toNat).length = c.toNat := List.length_take_of_le (by omega)
    have hnameLen : ((rest.drop c.toNat).take (readBe16 n1 n0)).length = readBe16 n1 n0 := by
      exact List.length_take_of_le (by rw [List.length_drop]; omega)
    have hpay : (rest.drop (c.toNat + readBe16 n1 n0)).length = readBe16 l1 l0 := by rw [List.length_drop]; omega
    have hcidOperand := getD_operand (x := rest.take c.toNat) fun hflag => by rw [hcid hflag]; rfl
    have hnameOperand := getD_operand (x := (rest.drop c.toNat).take (readBe16 n1 n0))
      fun hflag => by rw [hname hflag]; rfl
    have hparts : rest.take c.toNat ++ ((rest.drop c.toNat).take (readBe16 n1 n0)
        ++ rest.drop (c.toNat + readBe16 n1 n0)) = rest := by
      rw [← List.drop_drop, List.take_append_drop, List.take_append_drop]
    refine encodesBack_of_prioOperand ?_ ?_
    · simp only [Instr.wellFormed, hcidOperand, hnameOperand, hcidLen, hnameLen, hpay, readBe32_lt, readBe16_lt,
        c.isLt, decide_true, Bool.and_self]
    · simp only [encode, isSome_prioOperand, isSome_operand, flagsByte_build hflags, hcidOperand, hnameOperand,
        len8_eq_of_length hcidLen, hnameLen, hpay, be32_readBe32, be16_readBe16, List.cons_append, List.nil_append,
        List.append_assoc, hparts]

theorem encodesBack_mcastAddr (h : decodeMcastAddr b = .ok i) : EncodesBack (0x04#8 :: b) i := by
  by_cases hlen : b.length = 4
  · obtain ⟨u3, u2, u1, u0, rfl⟩ := List.length_eq_four.mp hlen
    cases h
    exact encodesBack_of_eq (decide_eq_true (readBe32_lt ..)) (congrArg _ (be32_readBe32 ..))
  · rw [decodeMcastAddr_of_length_ne hlen] at h
    cases h

theorem selectorKind_cases (kind : Byte) : kind = 0#8 ∨ kind = 1#8 ∨ kind = 2#8 ∨ 3 ≤ kind.toNat := by bv_omega

theorem encodesBack_setMcastIf (h : decodeSetMcastIf b = .ok i) : EncodesBack (0x05#8 :: b) i := by
  rcases Nat.lt_or_ge b.length 2 with hshort | hlong
  · rw [decodeSetMcastIf_of_short hshort] at h
    cases h
  · obtain ⟨kind, s, sel, rfl⟩ := exists_two_bytes hlong
    simp only [decodeSetMcastIf, ite_error_eq_ok_iff, not_or, not_and, not_not] at h
    obtain ⟨⟨hindex, hipv4, hipv6⟩, hlen, h⟩ := h
    have hlen8 : len8 sel = s := len8_eq_of_length hlen
    rcases selectorKind_cases kind with rfl | rfl | rfl | hkind
    · obtain rfl := hindex rfl
      obtain ⟨x3, x2, x1, x0, rfl⟩ := List.length_eq_four.mp hlen
      obtain rfl := Except.ok.inj h
      refine encodesBack_of_eq rfl ?_
      simp only [encode, encodeSelector, BitVec.toNat_ofNat]
      rw [Nat.mod_eq_of_lt (readBe32_lt ..), be32_readBe32]
      rfl
    · obtain rfl := Except.ok.inj h
      exact encodesBack_of_eq (by simp [Instr.wellFormed, IfSelector.wellFormed, hlen, hipv4 rfl])
        (by simp [encode, encodeSelector, hlen8])
    · obtain rfl := Except.ok.inj h
      exact encodesBack_of_eq (by simp [Instr.wellFormed, IfSelector.wellFormed, hlen, hipv6 rfl])
        (by simp [encode, encodeSelector, hlen8])
    · rw [if_neg (by bv_omega), if_neg (by bv_omega), if_neg (by bv_omega)] at h
      obtain rfl := Except.ok.inj h
      exact encodesBack_of_eq (by simp [Instr.wellFormed, IfSelector.wellFormed, hlen, hkind, s.isLt])
        (by simp [encode, encodeSelector, hlen8])

theorem encodesBack_teardown (h : decodeTeardown b = .ok i) : EncodesBack (0x06#8 :: b) i := by
  cases b with
  | nil => cases h; exact encodesBack_of_eq rfl rfl
  | cons x b => cases h

end

/-- Settles O2, opcode by opcode. -/
theorem encodeOfDecode : Obligations.EncodeOfDecode := by
  intro d i h
  show EncodesBack d i
  cases d with
  | nil => cases h
  | cons op b =>
    rcases opcode_cases op with rfl | rfl | rfl | rfl | rfl | rfl | rfl | hge
    · obtain ⟨_, _, _, _, _, _, rfl, hwf, henc⟩ := decodePacket_eq_ok_iff.mp h
      exact encodesBack_of_eq hwf henc
    · exact encodesBack_sendMcast h
    · exact encodesBack_sendUcast h
    · exact encodesBack_build h
    · exact encodesBack_mcastAddr h
    · exact encodesBack_setMcastIf h
    · exact encodesBack_teardown h
    · rw [decode_of_opcode_ge hge] at h
      cases h

end Sys2Proof.Machine
end

section
/-! PROOFS. The family `30_encoding`: the fields of every packet built, the messages, and the commands presented. -/

namespace Sys2Proof.Machine

/-! ### The fields of a packet built -/

/-- Settles O13, layer by layer. -/
theorem packetFieldsStandAtTheirOffsets : Obligations.PacketFieldsStandAtTheirOffsets := by
  intro p univ name cid seq pay prio hw ha
  have hc := ha.cidFits
  have hn := nameField_length name
  have hroot (i : Nat) {j : Nat} (h : j ≤ 38) := slice_root .e131 hc prio seq univ pay (name64 := nameField name) i h
  have hframing {i j : Nat} (h : 38 ≤ i) (h' : j ≤ 115) := slice_framing .e131 hc hn prio seq univ pay h h'
  have htail {i j : Nat} (h : 108 ≤ i) (h' : j ≤ 115) :=
    slice_packetLayout_framingTail .e131 hc hn prio seq univ pay h h'
  have hdmp {i : Nat} (h : 115 ≤ i) (j : Nat) := slice_dmp .e131 hc hn prio seq univ pay h j
  have htailByte {i : Nat} (h : 108 ≤ i) (h' : i < 115) :=
    byteAt_packetLayout_framingTail .e131 hc name prio seq univ pay h h'
  have hdmpByte {i : Nat} (h : 115 ≤ i) := byteAt_dmp .e131 hc hn prio seq univ pay h
  refine ⟨_, build_eq_packetOf ha seq, ?_⟩
  rw [packetOf, hw]
  exact ⟨packetLayout_length .e131 hc hn prio seq univ pay,
    -- the root layer
    (hroot 0 (by omega)).trans rfl, (hroot 4 (by omega)).trans rfl,
    slice_packetLayout_rootLength .e131 hc prio seq univ pay, (hroot 18 (by omega)).trans rfl,
    slice_packetLayout_cid .e131 hc prio seq univ pay,
    -- the framing layer
    slice_packetLayout_framingLength .e131 hc hn prio seq univ pay, (hframing (by omega) (by omega)).trans rfl,
    slice_packetLayout_name .e131 hc hn prio seq univ pay, (htailByte (by omega) (by omega)).trans rfl,
    (htail (by omega) (by omega)).trans rfl, (htailByte (by omega) (by omega)).trans rfl,
    (htailByte (by omega) (by omega)).trans rfl, (htail (by omega) (by omega)).trans rfl,
    -- the DMP layer
    slice_packetLayout_dmpLength .e131 hc hn prio seq univ pay, (hdmpByte (by omega)).trans rfl,
    (hdmpByte (by omega)).trans rfl, (hdmp (by omega) _).trans rfl, (hdmp (by omega) _).trans rfl,
    slice_packetLayout_count .e131 hc hn prio seq univ pay, (hdmpByte (by omega)).trans rfl,
    slice_packetLayout_pay .e131 hc hn prio seq univ pay⟩

/-- Settles O14, layer by layer. -/
theorem sourceFieldsInThePacket : Obligations.SourceFieldsInThePacket := by
  intro p univ name cid seq pay prio b hb
  obtain ⟨n, c, rfl, hcid, ha, rfl⟩ := build_ok_packetOf hb
  obtain rfl := Option.some.inj hcid
  have hc := ha.cidFits
  have hn := nameField_length n
  have hu := ha.univFits
  have htail {i : Nat} (h : 108 ≤ i) (h' : i < 115) :=
    byteAt_packetLayout_framingTail p.wire hc n prio seq univ pay h h'
  have hdmp {i : Nat} (h : 115 ≤ i) := byteAt_dmp p.wire hc hn prio seq univ pay h
  have hcid := slice_packetLayout_cid p.wire hc prio seq univ pay (name64 := nameField n)
  have hcount := slice_packetLayout_count p.wire hc hn prio seq univ pay
  have hpay := slice_packetLayout_pay p.wire hc hn prio seq univ pay
  have hfits := ha.payFits
  have hhigh : (byteAt (packetOf p univ n cid seq pay prio) 113).toNat = univ / 256 := by
    rw [packetOf, htail (by omega) (by omega)]
    exact Nat.mod_eq_of_lt (by omega)
  have hlow : (byteAt (packetOf p univ n cid seq pay prio) 114).toNat = univ % 256 := by
    rw [packetOf, htail (by omega) (by omega)]
    rfl
  exact ⟨hc, fun i hi => byteAt_of_slice hcid (by omega),
    htail (by omega) (by omega), htail (by omega) (by omega), htail (by omega) (by omega), hhigh, hlow,
    hdmp (by omega), hdmp (by omega), hdmp (by omega), hdmp (by omega),
    readBe16_of_slice hcount (by omega), ha.payPresent, ha.payFits, hdmp (by omega),
    packetLayout_length p.wire hc hn prio seq univ pay, fun i hi => byteAt_of_slice hpay (by omega)⟩

/-- Settles O15: each field says the length less what comes before it. -/
theorem lengthFieldsAgree : Obligations.LengthFieldsAgree := by
  intro p univ name cid seq pay prio b hb
  obtain ⟨n, c, rfl, rfl, ha, rfl⟩ := build_ok_packetOf hb
  have hn := nameField_length n
  have hlength := packetLayout_length p.wire ha.cidFits hn prio seq univ pay
  obtain ⟨⟨hroot, hrootFlags⟩, ⟨hframing, hframingFlags⟩, ⟨hdmp, hdmpFlags⟩, hcount⟩ :=
    lengthFields_packetLayout p.wire ha.cidFits hn prio seq univ ha.payFits
  rw [packetOf, hlength, hroot, hframing, hdmp, hcount]
  exact ⟨by omega, by omega, by omega, by omega, hrootFlags, hframingFlags, hdmpFlags⟩

theorem byteAt_zeros (n i : Nat) : byteAt (zeros n) i = 0 := by
  rw [byteAt, zeros, List.getD_eq_getElem?_getD, List.getElem?_replicate]
  split <;> rfl

/-- Settles O17: a name of 64 bytes or more is cut, a shorter one is followed by zeros. -/
theorem nameFieldTruncatesOrPads : Obligations.NameFieldTruncatesOrPads := by
  intro name
  refine ⟨nameField_length name, fun i hi => ?_⟩
  unfold nameField
  split
  · next hlong =>
    rw [if_pos (show i < name.length by simp only [Config.nameWidth] at hlong; omega)]
    simp [byteAt, List.getElem?_take_of_lt hi]
  · next hshort =>
    split
    · next hin => exact byteAt_append_left hin _
    · next hpast => rw [byteAt_append_right (by omega), byteAt_zeros]

/-! ### Completions, and the multicast address -/

/-- Settles O33: a completion is taken only when it can be. -/
theorem noCompletionWithoutAPendingEntry : Obligations.NoCompletionWithoutAPendingEntry :=
  fun _ _ _ _ h => pending_of_enabled_txs (enabled_of_nextInput h)

theorem validateUniverse_of_large (p : Params) {univ : Nat} (h : 65536 ≤ univ) :
    validateUniverse p univ = some .universeNot16Bit := if_pos h

theorem validateUniverse_of_fits {p : Params} {univ : Nat} (h : univ < 65536) :
    validateUniverse p univ = if universeRejected p univ then some .universeOutOfRange else none :=
  if_neg (Nat.not_le.mpr h)

/-- Settles O35, answer by answer. -/
theorem mcastAddrCommandAnswers : Obligations.McastAddrCommandAnswers := by
  intro s univ
  refine ⟨fun hlarge => ?_, fun hfits hpolicy hrange => ?_, fun hfits hrange => ?_⟩
  · exact exec_mcastAddr_of_some (validateUniverse_of_large _ hlarge)
  · have hrejected : universeRejected s.params univ = true := by
      rw [← Bool.not_eq_false, universeRejected_false]
      intro h
      have := h hpolicy
      omega
    exact exec_mcastAddr_of_some ((validateUniverse_of_fits hfits).trans (if_pos hrejected))
  · have hpasses : universeRejected s.params univ = false := universeRejected_false.mpr hrange
    exact exec_mcastAddr_of_none ((validateUniverse_of_fits hfits).trans (if_neg (by simp [hpasses])))

/-! ### The TX message -/

/-- What follows the first `i` bytes of a string. -/
theorem slice_suffix {a : Bytes} {i : Nat} (h : a.length = i) (b : Bytes) : slice (a ++ b) i (a ++ b).length = b := by
  rw [slice_append_right h.le, h, Nat.sub_self]
  exact slice_zero_of_length (by simp [h])

/-- Settles O44: the six bytes of the head, then the destination, then the datagram. -/
theorem transmitMessageReadsBack : Obligations.TransmitMessageReadsBack := by
  intro dest port bytes hdest hbytes
  refine ⟨_, rfl, ?_, ?_, ?_, ?_, ?_, ?_, ?_, ?_⟩
  · simp; omega
  · cases dest <;> simp [byteAt, Dest.kind]
  · cases dest <;> simp [byteAt, Dest.kind]
  · exact len8_toNat hdest
  · exact readBe16_be16 port.isLt
  · exact readBe16_be16 (by omega)
  · rw [slice_append_left (by simp; omega), slice_append_right (by simp)]
    simpa using slice_zero_of_length rfl
  · exact slice_suffix (by simp; omega) bytes

/-! ### Presenting a command -/

/-- An input at the head that can be taken, and presents an instruction, is what the step runs. -/
theorem step_of_head_presents {s : State} {c : Nat} {i : Instr} {x : Input} (h : x.enabled s = true)
    (hx : x.Presents c i) (rest : List Input) :
    step { s with inbox := x :: rest } = exec i { s with inbox := rest, caller := c } :=
  step_of_presents (s := { s with inbox := x :: rest }) (takeFirst_head h rest) hx

/-- Settles O58: the value and its descriptor both present the command, on a port that accepts either. -/
theorem anyCommandCanBePresented : Obligations.AnyCommandCanBePresented := by
  intro s c i rest hi hport hidle
  have hvalue := step_of_head_presents (enabled_command_iff.mpr ⟨⟨hport, hidle⟩, hi⟩) (.inl rfl) rest
  refine ⟨hvalue, fun hwf => ?_⟩
  rw [hvalue]
  exact step_of_head_presents (enabled_cmd_iff.mpr ⟨hport, hidle⟩) (.inr ⟨_, rfl, decode_encode hwf⟩) rest

/-! ### Written-out cases -/

/-- Settles O3, by running the decoder on the nine strings. -/
theorem vectorWordsDecode : Obligations.VectorWordsDecode := by
  unfold Obligations.VectorWordsDecode
  decide +kernel

/-- Settles O4, by running the assembler on the twelve lines. -/
theorem writtenLinesAssemble : Obligations.WrittenLinesAssemble := by
  unfold Obligations.WrittenLinesAssemble
  decide +kernel

/-- Settles O21: the row's meaning is the answer to a reserved descriptor. -/
theorem packetAsCommandAnsweredReserved : Obligations.PacketAsCommandAnsweredReserved :=
  fun _ _ _ _ _ _ _ => rfl

/-- Settles O43, by running the encoder of the responses. -/
theorem responseCodes : Obligations.ResponseCodes := by
  unfold Obligations.ResponseCodes
  decide

end Sys2Proof.Machine
end

section
/-! PROOFS. The family `40_packet_builder`: the order of the checks, what `build` answers and what `BUILD` does with it, and
the packet read back. -/

namespace Sys2Proof.Machine

/-! ### The order of the checks -/

/-- A check of `validate` reports its own cause, or passes and leaves the report to the later checks (R91). -/
theorem check_eq_some_iff {c : Prop} [Decidable c] {own cause : EncodingCause} {later : Option EncodingCause} :
    (if c then some own else later) = some cause ↔ c ∧ own = cause ∨ ¬ c ∧ later = some cause := by
  rw [ite_eq_iff, Option.some.injEq]

/-- A string operand is given, with a length of which `P` holds. -/
theorem exists_length_iff {operand : Option Bytes} {P : Nat → Prop} :
    (∃ b, operand = some b ∧ P b.length) ↔ operand ≠ none ∧ P (operand.getD []).length := by
  cases operand <;> simp

/-- The universes of 16 bits that are rejected for their range (R88). -/
theorem fits_and_universeRejected_iff {p : Params} {univ : Nat} :
    univ < 65536 ∧ universeRejected p univ = true ↔
      p.universePolicy = .reject ∧ (univ = 0 ∨ (64000 ≤ univ ∧ univ < 65536)) := by
  simp only [universeRejected, Config.universeMax, Bool.and_eq_true, Bool.or_eq_true, decide_eq_true_eq]
  cases p.universePolicy with
  | reject => simp only [true_and]; omega
  | pass => simp

theorem priorityRejected_iff {p : Params} {prio : Byte} :
    priorityRejected p prio = true ↔ p.priorityPolicy = .reject ∧ 200 < prio.toNat := by
  simp [priorityRejected, Config.priorityMax]

/-- Settles O12: `validate` makes its checks one after another, so a cause is reported when its own check fails and those
before it pass. -/
theorem validationReportsTheFirstCause : Obligations.ValidationReportsTheFirstCause := by
  intro p univ name cid pay prio
  have hcidFits := exists_length_iff (operand := cid) (P := (· = 16))
  have hcidOff := exists_length_iff (operand := cid) (P := (· ≠ 16))
  have hname : (∃ n, name = some n) ↔ name ≠ none := Option.ne_none_iff_exists'.symm
  refine ⟨?payloadEmpty, ?payloadTooLong, ?cidMissing, ?cidMalformed, ?nameMissing, ?universeNot16Bit,
    ?universeOutOfRange, ?priorityOutOfRange, validate_none⟩
  -- the report as the outcomes of the checks up to the cause's own
  all_goals simp only [validate, check_eq_some_iff, reduceCtorEq, and_false, and_true, false_or, or_false]
  -- each check, and each condition of the statement, in one spelling
  all_goals simp only [hcidFits, hcidOff, hname, universeRejected_false, fits_and_universeRejected_iff,
    priorityRejected_iff, Config.payloadMax, Config.cidLen, Config.universeLimit, Nat.one_le_iff_ne_zero,
    Bool.not_eq_true, ne_eq, not_not, ge_iff_le, gt_iff_lt, not_lt, not_le, and_assoc]
  -- a payload that is too long is not empty
  case payloadTooLong => omega

/-! ### What `build` answers, and the command `BUILD` -/

/-- `build` fails with the cause that `validate` finds, and in no other way (R96). -/
theorem build_eq_error_iff {p : Params} {univ : Nat} {name cid : Option Bytes} {seq : Byte} {pay : Bytes} {prio : Byte}
    {cause : EncodingCause} :
    build p univ name cid seq pay prio = .error cause ↔ validate p univ name cid pay prio = some cause := by
  refine ⟨fun hb => ?_, fun hv => build_of_cause hv seq⟩
  cases hv : validate p univ name cid pay prio with
  | none =>
    obtain ⟨n, c, rfl, rfl, ha⟩ := validate_none.mp hv
    rw [build_eq_packetOf ha] at hb
    cases hb
  | some found =>
    rw [build_of_cause hv, Except.error.injEq] at hb
    rw [hb]

/-- Settles O18: `build` answers the packet of R50. -/
theorem buildCommandAnswersThePacket : Obligations.BuildCommandAnswersThePacket :=
  fun _ _ _ _ seq _ _ ha => exec_build_of_ok (build_eq_packetOf ha seq)

/-- Settles O19: `build` fails with the cause. -/
theorem buildCommandAnswersTheCause : Obligations.BuildCommandAnswersTheCause :=
  fun _ _ _ _ seq _ _ _ hv => exec_build_of_error (build_of_cause hv seq)

/-- Settles O11: what `validate` accepts is built, and what it rejects is answered by `BUILD` and by the sends alike. -/
theorem buildFailsOnlyByValidation : Obligations.BuildFailsOnlyByValidation := by
  intro p univ name cid seq pay prio
  refine ⟨fun hv => ?_, fun _ => build_eq_error_iff, ?_⟩
  · obtain ⟨n, c, rfl, rfl, ha⟩ := validate_none.mp hv
    exact ⟨_, build_eq_packetOf ha seq,
      packetLayout_length p.wire ha.cidFits (nameField_length n) prio seq univ pay⟩
  · rintro s host i cause rfl hv (rfl | ⟨hup, rfl, rfl, hi⟩)
    · exact buildCommandAnswersTheCause s univ name cid seq pay (some prio) cause hv
    · obtain ⟨hmcast, hucast⟩ := rejectedSendChangesNothing s host univ pay (some prio) cause hup hv
      rcases hi with rfl | rfl
      · exact hmcast
      · exact hucast

/-! ### The packet read back -/

theorem nameField_of_le {name : Bytes} (h : name.length ≤ 64) : nameField name = name ++ zeros (64 - name.length) := by
  rcases Nat.lt_or_eq_of_le h with hshort | hfull
  · exact if_neg (Nat.not_le.mpr hshort)
  · simp [nameField_of_length hfull, hfull, zeros]

theorem nameField_of_ge {name : Bytes} (h : 64 ≤ name.length) : nameField name = name.take 64 := if_pos h

/-- Settles O16: what is built is the layout of R50, which the reader of R75 reads back. -/
theorem builtPacketReadsBack : Obligations.BuiltPacketReadsBack := by
  intro p univ name cid seq pay prio hv
  obtain ⟨_, _, ⟨⟩, ⟨⟩, ha⟩ := validate_none.mp hv
  exact ⟨_, build_eq_packetOf ha seq,
    decodeFields_packetLayout p.wire ha.cidFits (nameField_length name) prio seq ha.univFits ha.payPresent,
    nameField_of_le, fun h => nameField_of_ge h.le⟩

/-- Settles O20: the operands are accepted, and the layout of R50 for them is those bytes. -/
theorem sourceExamplePacket : Obligations.SourceExamplePacket := by
  refine (build_eq_packetOf ?_ 0).trans rfl
  constructor <;> decide

end Sys2Proof.Machine
end

section
/-! PROOFS. The family `41_sender`: what a send answers, runs of sends on one universe, completions, the multicast
address, and the state after an error. -/

namespace Sys2Proof.Machine

/-! ### What a send answers -/

/-- Whether an issue step answers an error or queues a packet, and which, does not depend on the command's destination
(R111, R113). -/
theorem issue_rejects_or_queues (univ : Nat) (pay : Bytes) (prio : Option Byte) (s : State) :
    (∃ e, ∀ cmd dest, issue cmd univ pay prio dest s = s.reject (some cmd) e)
    ∨ ∃ bytes, ∀ cmd dest, issue cmd univ pay prio dest s = s.queueSend cmd univ dest bytes := by
  cases hd : s.tornDown with
  | true => exact .inl ⟨_, issue_of_tornDown hd⟩
  | false =>
    cases hb : build s.params univ s.name s.cid (s.seqRead univ) pay (priorityOf prio) with
    | error cause => exact .inl ⟨_, issue_of_error hd hb⟩
    | ok bytes => exact .inr ⟨bytes, issue_of_ok hd hb⟩

/-- Settles O25: both sends are the issue step, which rejects both or queues one packet for either. -/
theorem packetDoesNotDependOnDestination : Obligations.PacketDoesNotDependOnDestination := by
  rintro s _ _ host univ pay prio ⟨⟩ ⟨⟩
  rcases issue_rejects_or_queues univ pay prio s with ⟨e, hreject⟩ | ⟨bytes, hqueue⟩
  · rw [hreject, hreject]
    exact ⟨rfl, .inl ⟨rfl, rfl⟩⟩
  · rw [hqueue, hqueue]
    exact ⟨rfl, .inr ⟨_, bytes, rfl, rfl⟩⟩

/-- A send that answers a next state has answered an error or queued a packet (R113). -/
theorem exec_send_cases {i : Instr} {u : Nat} {s t : State} (hi : i.sendsOn u) (h : exec i s = .next t) :
    (∃ e, t = s.reject (some i) e) ∨ ∃ dest bytes, t = s.queueSend i u dest bytes := by
  obtain ⟨answer, hanswer⟩ := exec_send_alike hi s
  obtain rfl := Host.Outcome.next.inj ((hanswer s s.caller (.refl u s)).symm.trans h)
  cases answer with
  | error e => exact .inl ⟨e, rfl⟩
  | packet dest bytes => exact .inr ⟨dest, bytes, rfl⟩

/-- Settles O26: a rejected send hands over nothing, and a queued packet goes to the register's port. -/
theorem datagramsGoToTheConfiguredPort : Obligations.DatagramsGoToTheConfiguredPort := by
  intro i u s t hi h
  rcases exec_send_cases hi h with ⟨e, rfl⟩ | ⟨dest, bytes, rfl⟩
  · exact .inl ⟨rfl, rfl⟩
  · exact .inr ⟨dest, bytes, _, rfl, pendInsert_perm _ _, rfl, rfl, rfl⟩

/-- Settles O27: a send writes the counter of its own universe or none. -/
theorem sendLeavesOtherCountersAlone : Obligations.SendLeavesOtherCountersAlone :=
  fun _ _ _ _ hi h _ hv => exec_counters_other h hi hv

/-! ### Successive sends on one universe -/

theorem nextSeq_add_ofNat (q : Byte) (n : Nat) : nextSeq q + BitVec.ofNat 8 n = q + BitVec.ofNat 8 (n + 1) := by
  rw [nextSeq, BitVec.add_assoc, BitVec.add_comm 1, BitVec.ofNat_add]
  rfl

/-- The numbers of `n + 1` sends that start from the counter `q` are `q` and those of `n` sends that start from the
next one (R116, R117). -/
theorem numbersFrom_succ (q : Byte) (n : Nat) :
    (List.range (n + 1)).map (fun k => q + BitVec.ofNat 8 k) =
      q :: (List.range n).map fun k => nextSeq q + BitVec.ofNat 8 k := by
  simp [List.range_succ_eq_map, nextSeq_add_ofNat]

/-- Settles O31, by induction on the list of sends: the first carries the counter and advances it, and the others still
pass since no register has moved. -/
theorem successiveSendsCountUpModulo256 : Obligations.SuccessiveSendsCountUpModulo256 := by
  intro is u
  induction is with
  | nil => exact fun s _ => ⟨s, rfl, (List.append_nil _).symm, (BitVec.add_zero _).symm⟩
  | cons i is ih =>
    intro s h
    obtain ⟨⟨hi, hpass⟩, hrest⟩ := List.forall_mem_cons.mp h
    obtain ⟨dest, bytes, hexec, -⟩ := exec_of_passesIn hi hpass
    have hregisters : SameRegisters s (s.queueSend i u dest bytes) := (sendIssued_queueSend ..).registers
    obtain ⟨t, hrun, hnumbers, hcounter⟩ := ih (s.queueSend i u dest bytes) fun j hj =>
      ⟨(hrest j hj).1, passesIn_of_sameRegisters hregisters (hrest j hj).2⟩
    rw [State.queueSend_seqRead_self] at hnumbers hcounter
    refine ⟨t, ?_, ?_, ?_⟩
    · rw [execAll, hexec]
      exact hrun
    · rw [hnumbers, State.queueSend_hist, issuedSeqs_append, issuedSeqs_issued, if_pos rfl, List.length_cons,
        numbersFrom_succ, List.append_assoc, List.singleton_append]
    · rw [hcounter, List.length_cons, nextSeq_add_ofNat]

/-! ### Completions -/

/-- A step that takes a completion completes the caller's pending entry (R118). -/
theorem step_of_txs {s : State} {c : Nat} {st : TxStatus} {rest : List Input}
    (h : s.nextInput = some (.txs c st, rest)) :
    ∃ e, pendFind c s.pend = some e ∧ step s = .next (complete e st (s.withInbox rest)) := by
  obtain ⟨e, hfind, -⟩ := pending_of_nextInput h
  exact ⟨e, hfind, (step_of_nextInput h).trans (serveStatus_of_pendFind (s := s.withInbox rest) hfind st)⟩

theorem sameRegisters_complete (e : PendEntry) (st : TxStatus) (rest : List Input) (s : State) :
    SameRegisters s (complete e st (s.withInbox rest)) := ⟨rfl, rfl, rfl, rfl, rfl, rfl⟩

/-- Settles O34: the completion of an entry writes no counter and no register. -/
theorem completionNeverMovesACounter : Obligations.CompletionNeverMovesACounter := by
  intro s c st rest h
  obtain ⟨e, -, hstep⟩ := step_of_txs h
  exact ⟨_, hstep, rfl, sameRegisters_complete e st rest s, rfl⟩

/-! ### The multicast address -/

/-- The two low bytes of the derived address give the universe back (R112). -/
theorem mcastAddr_injective {p : Params} {u v : Nat} (hu : u < 65536) (hv : v < 65536)
    (h : mcastAddr p u = mcastAddr p v) : u = v := by
  obtain ⟨-, -, hhigh, hlow⟩ := Dest.mcast.inj h
  calc
    u = readBe16 (BitVec.ofNat 8 (u / 256)) (BitVec.ofNat 8 u) := (readBe16_be16 hu).symm
    _ = readBe16 (BitVec.ofNat 8 (v / 256)) (BitVec.ofNat 8 v) := by rw [hhigh, hlow]
    _ = v := readBe16_be16 hv

theorem readBe32_eq_readBe16 (b3 b2 b1 b0 : Byte) :
    readBe32 b3 b2 b1 b0 = readBe16 b3 b2 * 65536 + readBe16 b1 b0 := by
  simp only [readBe32, readBe16]
  omega

/-- Settles O36: the address is the base and the two bytes of the universe. -/
theorem mcastAddressesAreDistinct : Obligations.McastAddressesAreDistinct := by
  intro p u v hu hv
  refine ⟨mcastAddr_injective hu hv, fun hwire => ⟨_, _, _, _, rfl, ?_⟩⟩
  rw [hwire, readBe32_eq_readBe16, readBe16_be16 hu]
  rfl

/-! ### The state after an error -/

/-- An instruction that answers an error changes nothing of the block and tells the TRANSPORT nothing (R145, R148): of
all that it can do, only a rejection and an unsupported family answer one. -/
theorem sameBlock_of_exec_error {i : Instr} {s t : State} {c : Nat} {e : Error} (h : exec i s = .next t)
    (hrsp : t.rsp = s.rsp ++ [(c, .err e)]) : SameBlock s t ∧ t.toTransport = s.toTransport := by
  rcases exec_cases h with ⟨cmd, e, rfl⟩ | ⟨univ, pay, prio, dest, bytes, -, -, -, -, rfl⟩ | ⟨r, rfl⟩
    | ⟨sel, -, -, -, rfl⟩ | ⟨sel, rfl⟩ | ⟨-, -, rfl⟩
  · exact ⟨sameBlock_reject s cmd e, rfl⟩
  · simp at hrsp
  · simp at hrsp
  · simp at hrsp
  · exact ⟨⟨rfl, rfl, rfl, rfl, rfl, rfl, rfl, rfl⟩, rfl⟩
  · simp at hrsp

/-- Every status but `Ok` answers a transmission error (R118). -/
theorem TxStatus.response_of_ne_ok {st : TxStatus} (h : st ≠ .ok) :
    ∃ cause, st.response = .err (.transmission cause) := by
  cases st with
  | ok => exact absurd rfl h
  | resolveFail | sendFail => exact ⟨_, rfl⟩

/-- Settles O42, for an instruction, a failed completion and a reserved descriptor. -/
theorem stateAfterAnError : Obligations.StateAfterAnError := by
  refine ⟨fun _ _ _ _ _ => sameBlock_of_exec_error, fun s c st rest h hst => ?_, fun s c d rest r h hd => ?_⟩
  · obtain ⟨e, hfind, hstep⟩ := step_of_txs h
    obtain ⟨cause, hcause⟩ := TxStatus.response_of_ne_ok hst
    obtain rfl := (pendFind_some hfind).2
    refine ⟨_, e, hstep, ⟨cause, ?_⟩, rfl, pendErase_perm hfind, rfl, sameRegisters_complete e st rest s, rfl⟩
    rw [← hcause]
    rfl
  · have hstep : step s = .next ((s.withInbox rest).serving c).rejectReserved := by
      rw [step_of_nextInput h, serve, serveCommand, hd]
    exact ⟨_, hstep, rfl, ⟨rfl, rfl, rfl, rfl, rfl, rfl, rfl, rfl⟩, rfl⟩

end Sys2Proof.Machine
end

section
/-! PROOFS. The family `42_configuration`: the two configuration commands, and which commands work after `TEARDOWN`. -/

namespace Sys2Proof.Machine

/-! ### The configuration commands -/

/-- Settles O37, by the three cases of the command. -/
theorem setMcastIfAnswers : Obligations.SetMcastIfAnswers := by
  intro s sel
  refine ⟨fun hdown => ?_, fun hup hfamily => ?_, fun hup hfamily => ?_⟩
  · exact execSetMcastIf_of_tornDown hdown sel
  · exact execSetMcastIf_of_unsupported hup hfamily
  · exact execSetMcastIf_of_supported hup hfamily

/-- Settles O38, by whether a transmission is pending; `TORN_DOWN` is not read. -/
theorem teardownAnswers : Obligations.TeardownAnswers :=
  fun _ => ⟨execTeardown_of_idle, execTeardown_of_pending⟩

/-! ### After `TEARDOWN` -/

/-- A torn-down block rejects every send, whatever its operands (R113, R132). -/
theorem exec_send_of_tornDown {i : Instr} {u : Nat} {s : State} (hi : i.sendsOn u) (h : s.tornDown = true) :
    exec i s = .next (s.reject (some i) (.badCommand .tornDown)) := by
  cases i with
  | sendMcast | sendUcast => exact congrArg _ (issue_of_tornDown h _ _)
  | build | mcastAddr | setMcastIf | teardown | e131DataPacket => exact hi.elim

/-- Settles O39: the sends and `SET_MCAST_IF` look at `TORN_DOWN` first, and by O48 the pure commands read no state. -/
theorem afterTeardownOnlyPureCommandsWork : Obligations.AfterTeardownOnlyPureCommandsWork := by
  intro s hdown
  refine ⟨?_, fun i hpure => ?_⟩
  · rintro i (⟨u, hi⟩ | ⟨sel, rfl⟩)
    · exact exec_send_of_tornDown hi hdown
    · exact execSetMcastIf_of_tornDown hdown sel
  · obtain ⟨t, -, event, response, hdownRun, hupRun, rfl, rfl⟩ :=
      pureCommandsReadNoState s { s with tornDown := false } i rfl rfl hpure
    exact ⟨_, hdownRun, hupRun⟩

end Sys2Proof.Machine
end
